-- ==== Sys2Proof/Word.lean ====
section
/-! DEFINITION. The value types of the MM3-64 mixer core and the named codes of its two coded registers
(spec/00_scope.md R8; spec/10_state.md R13, R16, R19; spec/30_encoding.md R43). -/

namespace Sys2Proof

/-- A byte: an input byte, a data lane, or the 8-bit command word. -/
abbrev Byte := BitVec 8

/-- A `u64`: the state words, LEN, RES and every datapath value (R8, R52). -/
abbrev U64 := BitVec 64

/-- The data word `din[127:0]`, 16 byte lanes (R32). -/
abbrev Data := BitVec 128

/-- PHASE, the position in a transaction (R16). Code 3 is never produced and has no value here (93 I7). -/
inductive Phase where
  | absorb
  | tailed
  | done
deriving DecidableEq, Repr, Inhabited

/-- ECAUSE, the cause of the first command error (R19, R90). Codes 5 to 7 are never produced and have no
value here (93 I7). -/
inductive Cause where
  /-- code 0: no error since the last INIT or reset -/
  | noError
  /-- code 1: E_OPCODE -/
  | opcode
  /-- code 2: E_FIELD -/
  | field
  /-- code 3: E_SEQ -/
  | seq
  /-- code 4: E_LEN -/
  | len
deriving DecidableEq, Repr, Inhabited

end Sys2Proof
end

