-- ==== Sys2Proof/Syntax.lean ====
section
/-! DEFINITION. The five commands, one constructor per row of spec/opcode_table.json
(spec/30_encoding.md R44, R45). A command's data word is an operand of it where its format uses lanes. -/

namespace Sys2Proof

/-- A command with its operands (R44). -/
inductive Instr where
  /-- NOP, format Z (R68) -/
  | nop
  /-- INIT, format Z (R69) -/
  | init
  /-- BLOCK, format B: all 16 lanes of `din` (R75) -/
  | block (din : Data)
  /-- TAIL r, format T: the count and the data word, of which lanes 0 to r-1 are used (R46, R81, R82) -/
  | tail (r : Nat) (din : Data)
  /-- FINAL, format Z (R85) -/
  | final
deriving DecidableEq, Repr

end Sys2Proof
end

