-- ==== Sys2Proof/WellFormed.lean ====
section
/-! DEFINITION. Which terms of Instr are commands: the TAIL count is 0 to 15 (spec/30_encoding.md R46). -/

namespace Sys2Proof

/-- The only bound the encoding sets is TAIL's: `r` is an unsigned integer 0 to 15 (R46). -/
def Instr.wellFormed : Instr → Bool
  | .nop => true
  | .init => true
  | .block _ => true
  | .tail r _ => decide (r ≤ 15)
  | .final => true

end Sys2Proof
end

