-- ==== Sys2Proof/Decode.lean ====
section
/-! DEFINITION. The opcode map, the decoder and the encoder (spec/30_encoding.md R43 to R49). -/

namespace Sys2Proof

/-- The three formats of R44. -/
inductive Format where
  | z
  | b
  | t
deriving DecidableEq, Repr

/-- One row of the opcode map of R45. -/
structure OpcodeRow where
  mnemonic : String
  format : Format
  pattern : Byte
  mask : Byte
deriving DecidableEq, Repr

/-- The opcode map (R45). -/
def opcodeTable : List OpcodeRow :=
  [ ⟨"NOP", .z, 0x00, 0xFF⟩,
    ⟨"INIT", .z, 0x10, 0xFF⟩,
    ⟨"BLOCK", .b, 0x20, 0xFF⟩,
    ⟨"TAIL", .t, 0x30, 0xF0⟩,
    ⟨"FINAL", .z, 0x40, 0xFF⟩ ]

/-- The mnemonic of a command (R45). -/
def Instr.mnemonic : Instr → String
  | .nop => "NOP"
  | .init => "INIT"
  | .block _ => "BLOCK"
  | .tail _ _ => "TAIL"
  | .final => "FINAL"

/-- The format of a command (R44). -/
def Instr.format : Instr → Format
  | .nop => .z
  | .init => .z
  | .block _ => .b
  | .tail _ _ => .t
  | .final => .z

/-- A word selects a row when `(cmd & mask) == match` (R45). -/
def OpcodeRow.selects (row : OpcodeRow) (cmd : Byte) : Bool :=
  (cmd &&& row.mask) == row.pattern

/-- `OP = cmd[7:4]` (R43). -/
def opField (cmd : Byte) : BitVec 4 := cmd.extractLsb' 4 4

/-- `R = cmd[3:0]` (R43). -/
def rField (cmd : Byte) : BitVec 4 := cmd.extractLsb' 0 4

/-- What a command word means: a command, or the error its word raises (R47). -/
inductive Decoded where
  | command (i : Instr)
  | illegal (c : Cause)
deriving DecidableEq, Repr

/-- The decoder of R47, with the data word beside the command word. -/
def decode (cmd : Byte) (din : Data) : Decoded :=
  if opField cmd = 0x0 then (if rField cmd = 0 then .command .nop else .illegal .field)
  else if opField cmd = 0x1 then (if rField cmd = 0 then .command .init else .illegal .field)
  else if opField cmd = 0x2 then (if rField cmd = 0 then .command (.block din) else .illegal .field)
  else if opField cmd = 0x3 then .command (.tail (rField cmd).toNat din)
  else if opField cmd = 0x4 then (if rField cmd = 0 then .command .final else .illegal .field)
  else .illegal .opcode

/-! The command words (R45). -/

def nopWord : Byte := 0x00
def initWord : Byte := 0x10
def blockWord : Byte := 0x20
/-- `0x30 | r` (R82). -/
def tailWord (r : Nat) : Byte := (0x3 : BitVec 4) ++ BitVec.ofNat 4 r
def finalWord : Byte := 0x40

/-- The command word of a command (R45). -/
def encodeWord : Instr → Byte
  | .nop => nopWord
  | .init => initWord
  | .block _ => blockWord
  | .tail r _ => tailWord r
  | .final => finalWord

/-- The data word of a command. Format Z uses no lane, and the assembler drives them as 0x00 (R50, 95 section 3). -/
def encodeData : Instr → Data
  | .nop => 0
  | .init => 0
  | .block din => din
  | .tail _ din => din
  | .final => 0

/-- The words of a well-formed command: the command word and the data word (R43). -/
def encode (i : Instr) : Byte × Data := (encodeWord i, encodeData i)

/-- The command word of an instruction written as one number, the command word in bits 7..0 (log entry 10). -/
def tableCmd (nbits w : Nat) : Byte := BitVec.ofNat 8 (w % 2 ^ nbits)

/-- The data word of the same number, in bits 135..8; zero where `nbits` gives it no bits (log entry 10). -/
def tableDin (nbits w : Nat) : Data := BitVec.ofNat 128 (w % 2 ^ nbits / 256)

/-- The command the decoder reads from a word numbered as spec/opcode_table.json numbers it. -/
def decodeTableWord (nbits w : Nat) : Option Instr :=
  match decode (tableCmd nbits w) (tableDin nbits w) with
  | .command i => some i
  | .illegal _ => none

end Sys2Proof
end

