-- ==== Sys2Proof/Machine/Operators.lean ====
section
/-! DEFINITION. The 64-bit operators of the datapath (spec/00_scope.md R9, spec/40_datapath.md R52 to R59).
Every operation is modulo 2^64, sets no flag and raises no error (R52). -/

namespace Sys2Proof.Machine

/-- `a +64 b` (R53). -/
def add64 (a b : U64) : U64 := a + b

/-- `a *64 b` (R54). -/
def mul64 (a b : U64) : U64 := a * b

/-- `a ^ b` (R56). -/
def xor64 (a b : U64) : U64 := a ^^^ b

/-- `a << n`: bits shifted beyond bit 63 are discarded (R9). -/
def shl64 (a : U64) (n : Nat) : U64 := a <<< n

/-- `a >>> n`, logical (R58). -/
def shr64 (a : U64) (n : Nat) : U64 := a >>> n

/-- `rotl64(a, n) = ((a << n) | (a >>> (64 - n))) mod 2^64`, for 0 < n < 64 (R57). -/
def rotl64 (a : U64) (n : Nat) : U64 := shl64 a n ||| shr64 a (64 - n)

/-- `zext_64` of a byte: never sign-extended (R59). -/
def zextByte (b : Byte) : U64 := b.setWidth 64

end Sys2Proof.Machine
end

