-- ==== Sys2Proof/Machine/Operands.lean ====
section
/-! DEFINITION. The operand assembly: data lanes, little-endian words, the block decoder and the tail
accumulator (spec/20_memory.md R32, R33; spec/42_block_mixer.md R72; spec/43_tail_mixer.md R77). -/

namespace Sys2Proof.Machine

/-! Data lanes. -/

/-- `DinByte(j) = din[8j+7 : 8j]` (R32). -/
def dinByte (din : Data) (j : Nat) : Byte := din.extractLsb' (8 * j) 8

/-- The lanes `start` to `start + n - 1`, lowest first. -/
def lanes (din : Data) (start n : Nat) : List Byte :=
  (List.range n).map fun j => dinByte din (start + j)

/-- The terms of `le64` from byte number `i` on (R33). -/
def le64From (i : Nat) : List Byte → U64
  | [] => 0
  | b :: bs => xor64 (shl64 (zextByte b) (8 * i)) (le64From (i + 1) bs)

/-- The little-endian word of at most 8 bytes, lowest offset first (R33). -/
def le64 (bs : List Byte) : U64 := le64From 0 bs

/-- The block decoder (R72): k1 from lanes 0..7, k2 from lanes 8..15. -/
def blockWords (din : Data) : U64 × U64 := (le64 (lanes din 0 8), le64 (lanes din 8 8))

/-- `for o = base + n - 1 down to base: k <- k ^ (zext_64(lane o) << 8*(o - base))` (R77). -/
def gather (lane : Nat → Byte) (base : Nat) : Nat → U64 → U64
  | 0, k => k
  | n + 1, k => gather lane base n (xor64 k (shl64 (zextByte (lane (base + n))) (8 * n)))

/-- The tail accumulator (R77): (k1, k2) from the first `r` lanes. -/
def tailAccum (lane : Nat → Byte) (r : Nat) : U64 × U64 :=
  (gather lane 0 (min r 8) 0, gather lane 8 (r - 8) 0)

end Sys2Proof.Machine
end

