-- ==== Sys2Proof/Machine/Datapath.lean ====
section
/-! DEFINITION. The datapath: operators, constants, key-word mixers, block round, tail mix, avalanche and
finalizer (spec/40_datapath.md R52 to R63, spec/42_block_mixer.md R73, spec/43_tail_mixer.md R79,
spec/44_finalizer.md R83, R84). Every value is a `u64` and every operation is modulo 2^64 (R52). -/

namespace Sys2Proof.Machine

/-! Constants (R60). -/

def C1 : U64 := 0x87C37B91114253D5
def C2 : U64 := 0x4CF5AD432745937F
def N1 : BitVec 32 := 0x52DCE729
def N2 : BitVec 32 := 0x38495AB5
def F1 : U64 := 0xFF51AFD7ED558CCD
def F2 : U64 := 0xC4CEB9FE1A85EC53

/-- `h *64 5 +64 zext_64(N)` (R55). -/
def mul5add (h : U64) (n : BitVec 32) : U64 := add64 (mul64 h 5) (n.setWidth 64)

/-- The first key-word mixer (R62). -/
def mixK1 (k : U64) : U64 := mul64 (rotl64 (mul64 k C1) 31) C2

/-- The second key-word mixer (R63). -/
def mixK2 (k : U64) : U64 := mul64 (rotl64 (mul64 k C2) 33) C1

/-- Steps 1 and 2 of the block round: the new `h1`, which adds the `h2` on entry (R73). -/
def broundH1 (h1 h2 k1 : U64) : U64 :=
  mul5add (add64 (rotl64 (xor64 h1 (mixK1 k1)) 27) h2) N1

/-- Steps 3 and 4 of the block round: the new `h2`, which adds the new `h1` (R73). -/
def broundH2 (newH1 h2 k2 : U64) : U64 :=
  mul5add (add64 (rotl64 (xor64 h2 (mixK2 k2)) 31) newH1) N2

/-- The block round (R73). -/
def bround (h1 h2 k1 k2 : U64) : U64 × U64 :=
  (broundH1 h1 h2 k1, broundH2 (broundH1 h1 h2 k1) h2 k2)

/-- The tail mix over the lanes `lane` (R79): the k2 stage when r ≥ 9, the k1 stage when r ≥ 1. -/
def tmix (h1 h2 : U64) (lane : Nat → Byte) (r : Nat) : U64 × U64 :=
  (if 1 ≤ r then xor64 h1 (mixK1 (tailAccum lane r).1) else h1,
   if 9 ≤ r then xor64 h2 (mixK2 (tailAccum lane r).2) else h2)

/-- One XOR-shift of the avalanche: `k ^ (k >>> 33)` (R83). -/
def xorShift33 (k : U64) : U64 := xor64 k (shr64 k 33)

/-- The avalanche (R83). -/
def fmix64 (k : U64) : U64 :=
  xorShift33 (mul64 (xorShift33 (mul64 (xorShift33 k) F1)) F2)

/-- `h1 <- h1 +64 h2; h2 <- h2 +64 h1`, the second addition reading the new `h1` (R84 steps 2 and 4). -/
def crossAdd (h : U64 × U64) : U64 × U64 := (add64 h.1 h.2, add64 h.2 (add64 h.1 h.2))

/-- The finalizer (R84). -/
def fin (h1 h2 len : U64) : U64 × U64 :=
  let mixed := crossAdd (xor64 h1 len, xor64 h2 len)
  crossAdd (fmix64 mixed.1, fmix64 mixed.2)

end Sys2Proof.Machine
end

