-- ==== Sys2Proof/Config.lean ====
section
/-! DEFINITION. What an implementation fixes, and the values the spec leaves open.
MAX_LEN is the one open parameter (spec/92 D7, spec/93 I1); State carries it, and its default stands here.
The free values are those of spec/93 I5, the state after a command that the host did not hold steady, and the
length word of an input whose length no 64-bit word holds (spec/91 N4). -/

namespace Sys2Proof.Config

/-- The default, and largest allowed, MAX_LEN: 2^64 - 1 (R7, D7). DESIGN CHOICE (log entry 2): State.reset takes it. -/
def defaultMaxLen : U64 := BitVec.allOnes 64

/-- The least MAX_LEN an implementation may have (93 I1: 1 ≤ MAX_LEN). -/
def leastMaxLen : U64 := 1

/-! Free values (93 I5, log entry 3): nothing constrains them. The argument of the first eight is the number of
the draw. -/

opaque freeH1 : Nat → U64
opaque freeH2 : Nat → U64
opaque freeLen : Nat → U64
opaque freePhase : Nat → Phase
opaque freeRes : Nat → U64
opaque freeValid : Nat → Bool
opaque freeErr : Nat → Bool
opaque freeCause : Nat → Cause

/-- The length word of an input of 2^64 bytes or more, which R86's `zext_64(L)` does not give. DESIGN CHOICE (log
entry 13): a free value, applied to the length. -/
opaque freeLengthWord : Nat → U64

end Sys2Proof.Config
end

