-- ==== Sys2Proof/Machine/State.lean ====
section
/-! DEFINITION. The state of the core as plain data (spec/10_state.md R13, R28), what the host drives on the
input ports (spec/30_encoding.md R42), and the reasons a step could stop. -/

namespace Sys2Proof.Machine

/-- What the host drives on the input ports for one step of the untimed core (R42, R65, R105).
`steady` says whether the host kept duty 6 of R108: `cmd` and `din` held from asserting `cmd_valid` until
the command is accepted (93 I5, log entry 3). `clk` has no field: no rule depends on it. -/
structure PortSample where
  rst : Bool
  cmdValid : Bool
  cmd : Byte
  din : Data
  steady : Bool
deriving DecidableEq, Repr

/-- The architectural state of R13 (the first eight fields), and three fields of the model's own:
`maxLen`, the parameter MAX_LEN (log entry 2); `host`, what the host drives next, the next sample first
(log entry 1); `free`, how many free values were drawn (log entry 3). -/
@[ext]
structure State where
  h1 : U64
  h2 : U64
  len : U64
  phase : Phase
  res : U64
  valid : Bool
  err : Bool
  ecause : Cause
  maxLen : U64
  host : List PortSample
  free : Nat
deriving DecidableEq, Repr

/-- No behaviour of the core stops the machine: a command error is a next state with ERR = 1 (R93), and
the four errors are the only ones (R90). So there is no fault to raise, by anything (log entry 6).
Safe: no meaning, and no step, answers with a fault. -/
inductive Fault where
deriving DecidableEq, Repr

/-- Why the model could decline an instruction. -/
inductive Refusal where
  /-- Raised only by an arm of `exec` that has no meaning yet; every arm has one, so nothing raises it.
  Safe: nothing can be proved of a step that is declined. -/
  | notModelled (mnemonic : String)
deriving DecidableEq, Repr

/-- The core right after reset (R28, R105), with nothing presented by the host, the default MAX_LEN and no
free value drawn (log entries 1, 2, 3). -/
def State.reset : State where
  h1 := 0
  h2 := 0
  len := 0
  phase := .absorb
  res := 0
  valid := false
  err := false
  ecause := .noError
  maxLen := Config.defaultMaxLen
  host := []
  free := 0

end Sys2Proof.Machine
end

