-- ==== Sys2Proof/Machine/Ops.lean ====
section
/-! DEFINITION. The shared operations over the state: the named updates, the check that every step runs
first, error entry, and the step every command shares (spec/41_control.md R65, R69;
spec/60_exceptions.md R91, R93; spec/70_reset_and_hazards.md R105; spec/93 I5). -/

namespace Sys2Proof.Machine

/-! Named updates of the state. -/

/-- What the host drives after the sample in hand. -/
def State.setHost (rest : List PortSample) (s : State) : State := { s with host := rest }

/-- `(H1, H2) <- h`. -/
def State.setWords (h : U64 × U64) (s : State) : State := { s with h1 := h.1, h2 := h.2 }

/-- `LEN <- LEN + n` (R15); the check has ruled out a carry past MAX_LEN. -/
def State.addLen (n : Nat) (s : State) : State := { s with len := s.len + BitVec.ofNat 64 n }

/-- `PHASE <- ph`. -/
def State.setPhase (ph : Phase) (s : State) : State := { s with phase := ph }

/-- `RES <- H1; VALID <- 1` (R85). -/
def State.publish (s : State) : State := { s with res := s.h1, valid := true }

/-- The writes of INIT (R69). MAX_LEN is a parameter, and the host's samples are not the core's state. -/
def State.clear (s : State) : State :=
  { s with h1 := 0, h2 := 0, len := 0, phase := .absorb, res := 0, valid := false, err := false,
           ecause := .noError }

/-- Reset: every state element at its reset value (R28, R105). -/
def State.resetCore (s : State) : State :=
  { State.reset with maxLen := s.maxLen, host := s.host, free := s.free }

/-- After a command whose `cmd` or `din` was not held steady, every state element is unconstrained
(93 I5): one draw of free values (log entry 3). -/
def State.scramble (s : State) : State :=
  { s with h1 := Config.freeH1 s.free, h2 := Config.freeH2 s.free, len := Config.freeLen s.free,
           phase := Config.freePhase s.free, res := Config.freeRes s.free,
           valid := Config.freeValid s.free, err := Config.freeErr s.free,
           ecause := Config.freeCause s.free, free := s.free + 1 }

/-! Errors. -/

/-- Error entry: `ERR <- 1; ECAUSE <- c` and nothing else (R93). -/
def State.raise (c : Cause) (s : State) : State := { s with err := true, ecause := c }

/-- The answer of the check (R91). -/
inductive Verdict where
  | ok
  | discard
  | error (c : Cause)
deriving DecidableEq, Repr

/-- The check every step runs first (R91). LEN + 16 and LEN + R are computed exactly.
While ERR = 1 only the exact word 0x10 (INIT) passes (R94). -/
def check (s : State) (cmd : Byte) : Verdict :=
  if s.err = true then (if cmd = initWord then .ok else .discard)
  else if 5 ≤ (opField cmd).toNat then .error .opcode
  else if (opField cmd = 0x0 ∨ opField cmd = 0x1 ∨ opField cmd = 0x2 ∨ opField cmd = 0x4) ∧
      rField cmd ≠ 0 then .error .field
  else if opField cmd = 0x2 ∧ s.phase ≠ .absorb then .error .seq
  else if opField cmd = 0x3 ∧ s.phase ≠ .absorb then .error .seq
  else if opField cmd = 0x4 ∧ s.phase = .done then .error .seq
  else if opField cmd = 0x2 ∧ s.maxLen.toNat < s.len.toNat + 16 then .error .len
  else if opField cmd = 0x3 ∧ s.maxLen.toNat < s.len.toNat + (rField cmd).toNat then .error .len
  else .ok

/-- The step every command shares (R65): discard, error entry, or the effect of the command. -/
def accept (cmd : Byte) (effect : State → State) (s : State) : Host.Outcome State Fault Refusal :=
  match check s cmd with
  | .discard => .next s
  | .error c => .next (s.raise c)
  | .ok => .next (effect s)

end Sys2Proof.Machine
end

