-- ==== Sys2Proof/Machine/Block.lean ====
section
/-! DEFINITION. BLOCK (spec/42_block_mixer.md R75). -/

namespace Sys2Proof.Machine

/-- The effect of BLOCK: decode the lanes, one block round, LEN + 16 (R75). -/
def absorbBlock (din : Data) (s : State) : State :=
  (s.setWords (bround s.h1 s.h2 (blockWords din).1 (blockWords din).2)).addLen 16

/-- BLOCK: absorb one 16-byte block (R75). -/
def execBlock (din : Data) (s : State) : Host.Outcome State Fault Refusal :=
  accept blockWord (absorbBlock din) s

end Sys2Proof.Machine
end

