-- ==== Sys2Proof/Machine/Control.lean ====
section
/-! DEFINITION. NOP and INIT (spec/41_control.md R68, R69). -/

namespace Sys2Proof.Machine

/-- NOP: no state changes (R68). -/
def execNop (s : State) : Host.Outcome State Fault Refusal := accept nopWord (fun t => t) s

/-- INIT: start a new transaction; the only command that runs while ERR = 1 (R69, R94). -/
def execInit (s : State) : Host.Outcome State Fault Refusal := accept initWord State.clear s

end Sys2Proof.Machine
end

