-- ==== Sys2Proof/Machine/Final.lean ====
section
/-! DEFINITION. FINAL (spec/44_finalizer.md R85). -/

namespace Sys2Proof.Machine

/-- The effect of FINAL: the finalizer over LEN, RES <- the new H1, VALID <- 1, PHASE <- DONE (R85). -/
def finalize (s : State) : State :=
  (s.setWords (fin s.h1 s.h2 s.len)).publish.setPhase .done

/-- FINAL: finalize the transaction and publish the result (R85). -/
def execFinal (s : State) : Host.Outcome State Fault Refusal := accept finalWord finalize s

end Sys2Proof.Machine
end

