-- ==== Sys2Proof/Machine/Tail.lean ====
section
/-! DEFINITION. TAIL (spec/43_tail_mixer.md R82). -/

namespace Sys2Proof.Machine

/-- The effect of TAIL r: the tail mix over lanes 0..r-1, LEN + r, PHASE <- TAILED (R82). -/
def absorbTail (r : Nat) (din : Data) (s : State) : State :=
  ((s.setWords (tmix s.h1 s.h2 (dinByte din) r)).addLen r).setPhase .tailed

/-- TAIL r: absorb the last r bytes (R82). -/
def execTail (r : Nat) (din : Data) (s : State) : Host.Outcome State Fault Refusal :=
  accept (tailWord r) (absorbTail r din) s

end Sys2Proof.Machine
end

