-- ==== Sys2Proof/Machine/Dispatch.lean ====
section
/-! DEFINITION. One arm per command (spec/41_control.md R65). -/

namespace Sys2Proof.Machine

def exec (i : Instr) (s : State) : Host.Outcome State Fault Refusal :=
  match i with
  | .nop => Sys2Proof.Machine.execNop s
  | .init => Sys2Proof.Machine.execInit s
  | .block din => Sys2Proof.Machine.execBlock din s
  | .tail r din => Sys2Proof.Machine.execTail r din s
  | .final => Sys2Proof.Machine.execFinal s

end Sys2Proof.Machine
end

