-- ==== Sys2Proof/Machine/Flags.lean ====
section
/-! DEFINITION. The status word and the output ports (spec/10_state.md R16, R21, R22; spec/60_exceptions.md R90).
The core has no arithmetic flag (R20): VALID, ERR, PHASE and ECAUSE are the only flags. -/

namespace Sys2Proof.Machine

/-- The 2-bit code of PHASE (R16). -/
def phaseCode : Phase → BitVec 2
  | .absorb => 0
  | .tailed => 1
  | .done => 2

/-- The 3-bit code of ECAUSE (R90). -/
def causeCode : Cause → BitVec 3
  | .noError => 0
  | .opcode => 1
  | .field => 2
  | .seq => 3
  | .len => 4

/-- A flag as one bit. -/
def flagBit (b : Bool) : BitVec 1 := if b then 1 else 0

/-- `STATUS = 0 ‖ ECAUSE[2:0] ‖ PHASE[1:0] ‖ ERR ‖ VALID` (R21), the port `status[7:0]` (R22). -/
def State.status (s : State) : Byte :=
  (0 : BitVec 1) ++ causeCode s.ecause ++ phaseCode s.phase ++ flagBit s.err ++ flagBit s.valid

/-- The port `res[63:0]` is RES at all times (R17, R22). -/
def State.resPort (s : State) : U64 := s.res

/-- The port `cmd_ready`: the untimed core can accept a command in every step in which it is not held in
reset (R42, R105, R112; log entry 4). -/
def cmdReady (p : PortSample) : Bool := !p.rst

end Sys2Proof.Machine
end

