-- ==== Sys2Proof/Machine/Port.lean ====
section
/-! DEFINITION. The command port: what one port sample makes the core do (spec/30_encoding.md R42,
spec/41_control.md R65, spec/60_exceptions.md R104, spec/70_reset_and_hazards.md R105, spec/93 I5). -/

namespace Sys2Proof.Machine

/-- The step of R65 on an accepted command. A word that is no command has no effect of its own: the check
gives its error, or discards it. -/
def acceptCommand (cmd : Byte) (din : Data) (s : State) : Host.Outcome State Fault Refusal :=
  match decode cmd din with
  | .command i => exec i s
  | .illegal _ => accept cmd (fun t => t) s

/-- One sample of the input ports: reset (R105, which accepts no command), an accepted command (R42: when
`cmd_valid` and `cmd_ready` are both 1), a command not held steady (93 I5), or nothing presented (R104). -/
def takeSample (p : PortSample) (s : State) : Host.Outcome State Fault Refusal :=
  if p.rst then .next s.resetCore
  else if p.cmdValid && cmdReady p then
    (if p.steady then acceptCommand p.cmd p.din s else .next s.scramble)
  else .next s

/-- A command that the host presents and holds until it is accepted. -/
def presented (cmd : Byte) (din : Data) : PortSample := ⟨false, true, cmd, din, true⟩

/-- The sample that presents the command written as one number (log entry 10). -/
def fetchSample (nbits w : Nat) : PortSample := presented (tableCmd nbits w) (tableDin nbits w)

end Sys2Proof.Machine
end

