-- ==== Sys2Proof/Machine/Step.lean ====
section
/-! DEFINITION. One step: the core takes the next sample of what the host drives (spec/41_control.md R65). -/

namespace Sys2Proof.Machine

/-- One step. When the host drives nothing more the core holds its state (R104, log entry 1). -/
def step (s : State) : Host.Outcome State Fault Refusal :=
  match s.host with
  | [] => .next s
  | p :: rest => takeSample p (s.setHost rest)

/-- `s` with the instruction presented as the host's next command (log entries 1, 10). -/
def State.withFetchWord (s : State) (nbits w : Nat) : State :=
  { s with host := fetchSample nbits w :: s.host }

end Sys2Proof.Machine
end

