-- ==== Sys2Proof/Machine/Reference.lean ====
section
/-! DEFINITION. The reference function hash64 (spec/44_finalizer.md R86), and the transaction the HASH
pseudo-instruction expands to (spec/30_encoding.md R51). -/

namespace Sys2Proof.Machine

/-- `Input[i]` (R10, R30); hash64 reads it for `i < L` only. -/
def inputByte (b : List Byte) (i : Nat) : Byte := b.getD i 0

/-- The bytes `b[start .. start + n - 1]`. -/
def slice (b : List Byte) (start n : Nat) : List Byte := (b.drop start).take n

/-- The state words after the first `n` blocks of the input, from h1 = h2 = 0 (R86). -/
def absorbBlocks (b : List Byte) : Nat → U64 × U64
  | 0 => (0, 0)
  | n + 1 =>
    bround (absorbBlocks b n).1 (absorbBlocks b n).2
      (le64 (slice b (16 * n) 8)) (le64 (slice b (16 * n + 8) 8))

/-- `nblocks = floor(L / 16)` (R31). -/
def nblocks (b : List Byte) : Nat := b.length / 16

/-- `r = L & 15`, the tail length (R31). -/
def tailLength (b : List Byte) : Nat := b.length % 16

/-- The state words after all blocks and the tail (R86). -/
def absorbed (b : List Byte) : U64 × U64 :=
  tmix (absorbBlocks b (nblocks b)).1 (absorbBlocks b (nblocks b)).2
    (fun j => inputByte b (16 * nblocks b + j)) (tailLength b)

/-- `zext_64(L)` (R61, R86), which has a value for `L < 2^64` only. For a longer input, which no core can absorb
(LEN is at most MAX_LEN), R86 gives none, and N4 of spec/91 says not to assume that the length wraps.
DESIGN CHOICE (log entry 13): there it is a free value. -/
def lengthWord (L : Nat) : U64 := if L < 2 ^ 64 then BitVec.ofNat 64 L else Config.freeLengthWord L

/-- The pair (h1, h2) at the return of hash64, the full 128-bit digest (R86). -/
def digest (b : List Byte) : U64 × U64 :=
  fin (absorbed b).1 (absorbed b).2 (lengthWord b.length)

/-- `hash64(b)` (R86): the first word of the digest. -/
def refHash64 (b : List Byte) : U64 := (digest b).1

/-- A data word with the given bytes on its lanes, lane 0 first, and 0x00 on the others (R50). -/
def dinOf : List Byte → Data
  | [] => 0
  | b :: bs => (dinOf bs <<< 8) ||| b.setWidth 128

/-- The commands `HASH b` expands to (R51). -/
def hashCommands (b : List Byte) : List Instr :=
  .init ::
    ((List.range (nblocks b)).map (fun i => Instr.block (dinOf (slice b (16 * i) 16))) ++
      ((if tailLength b = 0 then []
        else [Instr.tail (tailLength b) (dinOf (b.drop (16 * nblocks b)))]) ++ [Instr.final]))

end Sys2Proof.Machine
end

