-- ==== Sys2Proof/Machine/Assembler.lean ====
section
/-! DEFINITION. The textual form of command programs (spec/30_encoding.md R50, R51): one command per line,
mnemonics case-insensitive, `;` starts a comment, data bytes as hex pairs, lane 0 first.
What R50 does not say (blank lines, white space, what a malformed line gives) is log entry 12. -/

namespace Sys2Proof.Machine

/-- A line of the textual form (R50, R51). -/
inductive AsmLine where
  | nop
  | init
  | block (bytes : List Byte)
  | tail (r : Nat) (bytes : List Byte)
  | final
  | hash (bytes : List Byte)
deriving DecidableEq, Repr

/-- The commands of a line; `none` where the line breaks the form of R50. -/
def assembleLine : AsmLine → Option (List Instr)
  | .nop => some [.nop]
  | .init => some [.init]
  | .block bs => if bs.length = 16 then some [.block (dinOf bs)] else none
  | .tail r bs => if r ≤ 15 ∧ bs.length = r then some [.tail r (dinOf bs)] else none
  | .final => some [.final]
  | .hash bs => some (hashCommands bs)

/-- White space inside a line (log entry 12). -/
def isBlank (c : Char) : Bool := c.toNat == 32 || c.toNat == 9 || c.toNat == 13

/-- Without white space at either end. -/
def trim (cs : List Char) : List Char := ((cs.dropWhile isBlank).reverse.dropWhile isBlank).reverse

/-- The text before the comment (R50). -/
def stripComment (cs : List Char) : List Char := cs.takeWhile fun c => c.toNat != 59

/-- The upper-case code of a letter, so that mnemonics are case-insensitive (R50). -/
def upperCode (c : Char) : Nat := if 97 ≤ c.toNat ∧ c.toNat ≤ 122 then c.toNat - 32 else c.toNat

/-- A decimal digit. -/
def decDigit (c : Char) : Option Nat := if 48 ≤ c.toNat ∧ c.toNat ≤ 57 then some (c.toNat - 48) else none

/-- A hexadecimal digit. -/
def hexDigit (c : Char) : Option Nat :=
  if 48 ≤ c.toNat ∧ c.toNat ≤ 57 then some (c.toNat - 48)
  else if 65 ≤ upperCode c ∧ upperCode c ≤ 70 then some (upperCode c - 55)
  else none

/-- Bytes as hex pairs in increasing offset order (R11). -/
def parseHex : List Char → Option (List Byte)
  | [] => some []
  | [_] => none
  | a :: b :: cs =>
    match hexDigit a, hexDigit b, parseHex cs with
    | some x, some y, some bs => some (BitVec.ofNat 8 (16 * x + y) :: bs)
    | _, _, _ => none

/-- Decimal digits, most significant first, from the value read so far. -/
def parseDecFrom (n : Nat) : List Char → Option Nat
  | [] => some n
  | c :: cs =>
    match decDigit c with
    | some d => parseDecFrom (10 * n + d) cs
    | none => none

/-- A decimal number of at least one digit (R50). -/
def parseDec (cs : List Char) : Option Nat := if cs.isEmpty then none else parseDecFrom 0 cs

/-- The operands of TAIL: `<r>` for r = 0 only, else `<r>, <2r hex digits>` (R50). -/
def parseTail (cs : List Char) : Option AsmLine :=
  match cs.dropWhile (fun c => c.toNat != 44) with
  | [] =>
    match parseDec cs with
    | some 0 => some (.tail 0 [])
    | _ => none
  | _ :: rest =>
    match parseDec (trim (cs.takeWhile fun c => c.toNat != 44)), parseHex (trim rest) with
    | some (r + 1), some bs => some (.tail (r + 1) bs)
    | _, _ => none

/-- A line without its comment and without white space at its ends, not empty (R50, R51). -/
def parseCommand (cs : List Char) : Option AsmLine :=
  let word := (cs.takeWhile fun c => !isBlank c).map upperCode
  let args := trim (cs.dropWhile fun c => !isBlank c)
  if word = [78, 79, 80] then (if args = [] then some .nop else none)                  -- NOP
  else if word = [73, 78, 73, 84] then (if args = [] then some .init else none)        -- INIT
  else if word = [66, 76, 79, 67, 75] then (parseHex args).map .block                  -- BLOCK
  else if word = [84, 65, 73, 76] then parseTail args                                  -- TAIL
  else if word = [70, 73, 78, 65, 76] then (if args = [] then some .final else none)   -- FINAL
  else if word = [72, 65, 83, 72] then (parseHex args).map .hash                       -- HASH
  else none

/-- The commands of one line of text; a line of white space or comment only has none. -/
def assembleText (line : List Char) : Option (List Instr) :=
  match trim (stripComment line) with
  | [] => some []
  | c :: cs =>
    match parseCommand (c :: cs) with
    | some l => assembleLine l
    | none => none

/-- The commands of a program, line by line; `none` where a line breaks the form (R50). -/
def assembleProgram : List (List Char) → Option (List Instr)
  | [] => some []
  | line :: rest =>
    match assembleText line, assembleProgram rest with
    | some is, some js => some (is ++ js)
    | _, _ => none

/-- The digit of a listing, lower case as the spec's listings write data (R50, 95 section 3). -/
def hexChar (n : Nat) : Char := if n < 10 then Char.ofNat (48 + n) else Char.ofNat (87 + n)

/-- The digit of a command word in a listing, upper case (R50, 95 section 3). -/
def hexCharUpper (n : Nat) : Char := if n < 10 then Char.ofNat (48 + n) else Char.ofNat (55 + n)

/-- A byte as a hex pair. -/
def hexPair (digit : Nat → Char) (b : Byte) : List Char := [digit (b.toNat / 16), digit (b.toNat % 16)]

/-- The listing of a command: `cmd=0xHH din=<32 hex digits, lane 0 first>` (R50). -/
def listing (i : Instr) : List Char :=
  "cmd=0x".toList ++ hexPair hexCharUpper (encodeWord i) ++ " din=".toList ++
    (lanes (encodeData i) 0 16).flatMap (hexPair hexChar)

end Sys2Proof.Machine
end

