-- ==== Sys2Proof/Safety.lean ====
section
/-! DEFINITION. What claims about the core are stated in: a run's end and its fault, when a result may be
read, the invariant of the bookkeeping, the input a state has absorbed, and the shape of a transaction
(spec/10_state.md R15 to R19; spec/41_control.md R66; spec/44_finalizer.md R87; spec/60_exceptions.md R96). -/

namespace Sys2Proof.Machine

/-! Ends and faults. -/

/-- The first state a successful FINAL reaches: PHASE = DONE, VALID = 1, ERR = 0 (R66). -/
def State.atEnd (s : State) : Bool := s.phase == .done && s.valid && !s.err

/-- ERR = 1 at the end of a transaction is a fault of it (R96, 93 I13). -/
def State.faulted (s : State) : Bool := s.err

/-- A hash result may be read only when VALID = 1 and ERR = 0 (R96). -/
def State.resultReadable (s : State) : Bool := s.valid && !s.err

/-! The host's duties and the invariant. -/

/-- Duty 6 of R108: a command presented outside reset is held steady until it is accepted. -/
def PortSample.Held (p : PortSample) : Prop := p.rst = false → p.cmdValid = true → p.steady = true

/-- Every sample the host still drives keeps duty 6 of R108. -/
def State.HostHolds (s : State) : Prop := ∀ p ∈ s.host, p.Held

/-- The bookkeeping invariant: ERR and ECAUSE agree (R19); LEN is at most MAX_LEN (R15) and a multiple of 16
in ABSORB (R75); VALID is set exactly in DONE (R16, R18); RES is H1 when VALID = 1, else 0 (R17, R85, R96);
MAX_LEN is at least 1 (93 I1). -/
structure State.Inv (s : State) : Prop where
  err_iff_cause : s.err = true ↔ s.ecause ≠ .noError
  len_le_max : s.len.toNat ≤ s.maxLen.toNat
  absorb_aligned : s.phase = .absorb → s.len.toNat % 16 = 0
  valid_iff_done : s.valid = true ↔ s.phase = .done
  valid_res : s.valid = true → s.res = s.h1
  not_valid_res : s.valid = false → s.res = 0
  max_pos : Config.leastMaxLen.toNat ≤ s.maxLen.toNat

/-! The input a state has absorbed. -/

/-- The state is where the transaction stands after absorbing the bytes `b`, and no others: LEN counts them, the
state words are the reference function's, and after FINAL the result is `refHash64 b` (R15, R18, R86). -/
def State.Represents (s : State) (b : List Byte) : Prop :=
  s.len.toNat = b.length ∧
  match s.phase with
  | .absorb => b.length % 16 = 0 ∧ (s.h1, s.h2) = absorbed b ∧ s.valid = false ∧ s.res = 0
  | .tailed => (s.h1, s.h2) = absorbed b ∧ s.valid = false ∧ s.res = 0
  | .done => (s.h1, s.h2) = digest b ∧ s.valid = true ∧ s.res = refHash64 b

/-- The bytes absorbed after the state takes the sample `p`, from the bytes `b` absorbed before: a BLOCK the
check passes appends its 16 lanes and a TAIL its first r lanes; INIT and reset start again; nothing else
absorbs (R15, R36, R69, R105). -/
def absorbedAfter (s : State) (b : List Byte) (p : PortSample) : List Byte :=
  if p.rst then []
  else if p.cmdValid && (check s p.cmd == .ok) then
    match decode p.cmd p.din with
    | .command .nop => b
    | .command .init => []
    | .command (.block din) => b ++ lanes din 0 16
    | .command (.tail r din) => b ++ lanes din 0 r
    | .command .final => b
    | .illegal _ => b
  else b

/-! Transactions (R66). -/

/-- A sample that presents the command word `cmd` and holds it until accepted, with any data word. -/
def PortSample.Presents (p : PortSample) (cmd : Byte) : Prop :=
  p.rst = false ∧ p.cmdValid = true ∧ p.steady = true ∧ p.cmd = cmd

/-- The samples after the last input byte is absorbed: NOPs, and one FINAL as the last. -/
inductive Closing : List PortSample → Prop where
  | nop {p ps} : p.Presents nopWord → Closing ps → Closing (p :: ps)
  | final {p} : p.Presents finalWord → Closing [p]

/-- The samples that absorb the input `b` from block `n` on and finalize: the blocks in index order with their
16 bytes on the lanes (R32, R76), the tail bytes on the first r lanes of one TAIL, which may be left out when
r = 0, then FINAL; NOPs anywhere (R66). -/
inductive Absorbing (b : List Byte) : Nat → List PortSample → Prop where
  | nop {n p ps} : p.Presents nopWord → Absorbing b n ps → Absorbing b n (p :: ps)
  | block {n p ps} : n < nblocks b → p.Presents blockWord →
      (∀ j, j < 16 → dinByte p.din j = inputByte b (16 * n + j)) →
      Absorbing b (n + 1) ps → Absorbing b n (p :: ps)
  | tail {p ps} : p.Presents (tailWord (tailLength b)) →
      (∀ j, j < tailLength b → dinByte p.din j = inputByte b (16 * nblocks b + j)) →
      Closing ps → Absorbing b (nblocks b) (p :: ps)
  | final {p} : tailLength b = 0 → p.Presents finalWord → Absorbing b (nblocks b) [p]

/-- A whole transaction that begins with INIT (R66, R108 duty 5); NOPs may stand before it. -/
inductive Transaction (b : List Byte) : List PortSample → Prop where
  | nop {p ps} : p.Presents nopWord → Transaction b ps → Transaction b (p :: ps)
  | init {p ps} : p.Presents initWord → Absorbing b 0 ps → Transaction b (p :: ps)

/-- The eight state elements have their reset values (R28), whatever the host drives. -/
def State.Fresh (s : State) : Prop := s = s.resetCore

/-- The samples that present the commands `is` one after another, each held until accepted. -/
def presentAll (is : List Instr) : List PortSample :=
  is.map fun i => presented (encodeWord i) (encodeData i)

end Sys2Proof.Machine
end

