-- ==== Sys2Proof/Certificates/Slice0/Obligations.lean ====
section
/-! DEFINITION. The statements about the model, for the provers. Each docstring names the rule of spec/ it
formalises; where a rule is the spec's own inference, or a clause is the model's choice, it says so. -/

open Sys2Proof Sys2Proof.Machine

/-! Decoding and encoding. -/

/-- R43, R45: no bit of an encoding is dropped; every command comes back from its words, with every operand. -/
def Obligations.DecodeOfEncodeIsTheCommand : Prop :=
  ∀ i : Instr, i.wellFormed = true → decode (encode i).1 (encode i).2 = .command i

/-- The other direction (R43, R45, R48): a word that decodes to a command is that command's word, the command is
well-formed, and a format that uses lanes keeps the data word. -/
def Obligations.EncodeOfDecodeIsTheWord : Prop :=
  ∀ (cmd : Byte) (din : Data) (i : Instr), decode cmd din = .command i →
    i.wellFormed = true ∧ encodeWord i = cmd ∧ (i.format ≠ .z → encodeData i = din)

/-- R45: the opcode map, by ranges of the command word and by the rows' match and mask; the reserved words raise
E_FIELD and E_OPCODE. -/
def Obligations.EveryCommandWordIsOneRowOrRaises : Prop :=
  ∀ (cmd : Byte) (din : Data),
    (cmd.toNat = 0x00 → decode cmd din = .command .nop) ∧
    (cmd.toNat = 0x10 → decode cmd din = .command .init) ∧
    (cmd.toNat = 0x20 → decode cmd din = .command (.block din)) ∧
    (0x30 ≤ cmd.toNat → cmd.toNat ≤ 0x3F → decode cmd din = .command (.tail (cmd.toNat - 0x30) din)) ∧
    (cmd.toNat = 0x40 → decode cmd din = .command .final) ∧
    ((0x01 ≤ cmd.toNat ∧ cmd.toNat ≤ 0x0F) ∨ (0x11 ≤ cmd.toNat ∧ cmd.toNat ≤ 0x1F) ∨
        (0x21 ≤ cmd.toNat ∧ cmd.toNat ≤ 0x2F) ∨ (0x41 ≤ cmd.toNat ∧ cmd.toNat ≤ 0x4F) →
      decode cmd din = .illegal .field ∧
        ∀ s : State, s.err = false → check s cmd = .error .field) ∧
    (0x50 ≤ cmd.toNat →
      decode cmd din = .illegal .opcode ∧
        ∀ s : State, s.err = false → check s cmd = .error .opcode) ∧
    (∀ row ∈ opcodeTable, row.selects cmd = true ↔
      ∃ i, decode cmd din = .command i ∧ i.mnemonic = row.mnemonic ∧ i.format = row.format)

/-- Words written out bit by bit from R43 and R45, one for each row, and two reserved ones. -/
def Obligations.WrittenOutWordsDecode : Prop :=
  ∀ din : Data,
    decode 0b00000000 din = .command .nop ∧ decode 0b00010000 din = .command .init ∧
    decode 0b00100000 din = .command (.block din) ∧ decode 0b00110000 din = .command (.tail 0 din) ∧
    decode 0b00111011 din = .command (.tail 11 din) ∧ decode 0b01000000 din = .command .final ∧
    decode 0b01000001 din = .illegal .field ∧ decode 0b11110011 din = .illegal .opcode

/-! Operators and operands. -/

/-- R57 and R58, bit by bit: bit i of `rotl64 a n` is bit (i - n) mod 64 of a for 0 < n < 64, and bit i of
`a >>> 33` is bit i + 33, with zeros above (never a copy of the sign bit). -/
def Obligations.RotateAndShiftMoveEachBit : Prop :=
  ∀ a : U64,
    (∀ n i : Nat, 0 < n → n < 64 → i < 64 → (rotl64 a n).getLsbD i = a.getLsbD ((i + (64 - n)) % 64)) ∧
    (∀ i : Nat, (shr64 a 33).getLsbD i = if i + 33 ≤ 63 then a.getLsbD (i + 33) else false)

/-- R33, R59: byte j of the list is bits 8j+7..8j of the word, unsigned, and the bits above the last byte are 0. -/
def Obligations.LittleEndianWordPlacesEachByte : Prop :=
  ∀ bs : List Byte, bs.length ≤ 8 →
    (∀ j k : Nat, j < bs.length → k < 8 → (le64 bs).getLsbD (8 * j + k) = (bs.getD j 0).getLsbD k) ∧
    (∀ i : Nat, 8 * bs.length ≤ i → (le64 bs).getLsbD i = false)

/-- The block decoder is a wire permutation (R72, and D4's "k1 = din[63:0] and k2 = din[127:64]"). -/
def Obligations.BlockDecoderIsWirePermutation : Prop :=
  ∀ din : Data, blockWords din = (din.extractLsb' 0 64, din.extractLsb' 64 64)

/-- R78 (the spec's inference from R77 and R33): the words the descending accumulation builds are zero-padded
little-endian reads of the first r lanes. -/
def Obligations.TailAccumulatorIsPaddedRead : Prop :=
  ∀ (din : Data) (r : Nat), r ≤ 15 →
    tailAccum (dinByte din) r = (le64 (lanes din 0 (min r 8)), le64 (lanes din 8 (r - 8)))

/-- R64 (the spec's inference): mixK1 and mixK2 map 0 to 0, so a key word of 0 leaves a state word unchanged, and
both are bijections. -/
def Obligations.KeyMixersFixZeroAndAreBijections : Prop :=
  (mixK1 0 = 0 ∧ mixK2 0 = 0 ∧ ∀ h : U64, xor64 h (mixK1 0) = h ∧ xor64 h (mixK2 0) = h) ∧
  Function.Bijective mixK1 ∧ Function.Bijective mixK2

/-! What each command does. -/

/-- R68: NOP changes no state element, in every phase, while ERR = 1 too; 0x00 is NOP and 0x01 to 0x0F are not:
they raise E_FIELD. -/
def Obligations.NopChangesNothing : Prop :=
  ∀ s : State,
    exec .nop s = .next s ∧
    (∀ din, decode 0x00 din = .command .nop) ∧
    (∀ (cmd : Byte) (din : Data), 0x01 ≤ cmd.toNat → cmd.toNat ≤ 0x0F → s.err = false →
      acceptCommand cmd din s = .next { s with err := true, ecause := .field })

/-- R69: INIT writes every state element, from every state, while ERR = 1 too; twice is the same as once; it is the only
command that executes while ERR = 1: every other command, and every other word, changes nothing then; 0x10 is INIT, and
0x11 to 0x1F raise E_FIELD or are discarded while ERR = 1. -/
def Obligations.InitClearsEveryStateElement : Prop :=
  ∀ s : State,
    (∃ t, exec .init s = .next t ∧
      t = { s with h1 := 0, h2 := 0, len := 0, phase := .absorb, res := 0, valid := false, err := false,
                   ecause := .noError } ∧
      t.status = 0x00 ∧ exec .init t = .next t) ∧
    (s.err = true →
      (∀ i : Instr, i.wellFormed = true → i ≠ .init → exec i s = .next s) ∧
      (∀ (cmd : Byte) (din : Data), cmd ≠ 0x10 → acceptCommand cmd din s = .next s)) ∧
    (∀ din, decode 0x10 din = .command .init) ∧
    (∀ (cmd : Byte) (din : Data), 0x11 ≤ cmd.toNat → cmd.toNat ≤ 0x1F →
      acceptCommand cmd din s =
        if s.err = true then .next s else .next { s with err := true, ecause := .field })

/-- R75 with R72 and R73 written out in the library's own 64-bit operations: in ABSORB, with ERR = 0 and room for
16 bytes, BLOCK completes with the four steps of the round and LEN + 16, and changes nothing else. -/
def Obligations.BlockAbsorbsSixteenBytes : Prop :=
  ∀ (s : State) (din : Data), s.err = false → s.phase = .absorb → s.len.toNat + 16 ≤ s.maxLen.toNat →
    let k1 : U64 := (din.extractLsb' 0 64 * 0x87C37B91114253D5).rotateLeft 31 * 0x4CF5AD432745937F
    let k2 : U64 := (din.extractLsb' 64 64 * 0x4CF5AD432745937F).rotateLeft 33 * 0x87C37B91114253D5
    let h1 : U64 := ((s.h1 ^^^ k1).rotateLeft 27 + s.h2) * 5 + 0x52DCE729
    let h2 : U64 := ((s.h2 ^^^ k2).rotateLeft 31 + h1) * 5 + 0x38495AB5
    exec (.block din) s = .next { s with h1 := h1, h2 := h2, len := s.len + 16 }

/-- R82 with R77, R79 and R80 written out: in ABSORB, with ERR = 0 and room for r bytes, TAIL r completes; the k1
stage runs when r ≥ 1 over lanes 0..min(r,8)-1 and the k2 stage when r ≥ 9 over lanes 8..r-1; LEN + r, TAILED, and
nothing else changes. -/
def Obligations.TailAbsorbsItsBytes : Prop :=
  ∀ (s : State) (r : Nat) (din : Data), r ≤ 15 → s.err = false → s.phase = .absorb →
    s.len.toNat + r ≤ s.maxLen.toNat →
    let k1 : U64 := (din.extractLsb' 0 (8 * min r 8)).setWidth 64
    let k2 : U64 := (din.extractLsb' 64 (8 * (r - 8))).setWidth 64
    let m1 : U64 := (k1 * 0x87C37B91114253D5).rotateLeft 31 * 0x4CF5AD432745937F
    let m2 : U64 := (k2 * 0x4CF5AD432745937F).rotateLeft 33 * 0x87C37B91114253D5
    exec (.tail r din) s =
      .next { s with h1 := if 1 ≤ r then s.h1 ^^^ m1 else s.h1,
                     h2 := if 9 ≤ r then s.h2 ^^^ m2 else s.h2,
                     len := s.len + BitVec.ofNat 64 r, phase := .tailed }

/-- R85 with R83 and R84 written out: with ERR = 0 and PHASE not DONE, FINAL completes: the length xor, the
cross-adds around the two avalanches, RES <- the new H1, VALID <- 1, DONE, and nothing else changes. -/
def Obligations.FinalPublishesTheFinalizedWord : Prop :=
  ∀ s : State, s.err = false → s.phase ≠ .done →
    let xs : U64 → U64 := fun k => k ^^^ (k >>> 33)
    let avalanche : U64 → U64 := fun k =>
      xs (xs (xs k * 0xFF51AFD7ED558CCD) * 0xC4CEB9FE1A85EC53)
    let a : U64 := (s.h1 ^^^ s.len) + (s.h2 ^^^ s.len)
    let b : U64 := (s.h2 ^^^ s.len) + a
    let h1 : U64 := avalanche a + avalanche b
    let h2 : U64 := avalanche b + h1
    exec .final s = .next { s with h1 := h1, h2 := h2, res := h1, valid := true, phase := .done }

/-- The frame of every command, whether it runs, raises an error or is discarded (R68, R69, R75, R82, R85, R93, R94):
what it leaves unchanged. MAX_LEN, the host's samples and the free-value count are the model's own fields (log
entries 1, 2, 3), and no command changes them. -/
def Obligations.CommandsChangeOnlyWhatTheyName : Prop :=
  ∀ (i : Instr) (s t : State), i.wellFormed = true → exec i s = .next t →
    t.maxLen = s.maxLen ∧ t.host = s.host ∧ t.free = s.free ∧
    (i = .nop → t = s) ∧
    (∀ din, i = .block din → t.phase = s.phase ∧ t.res = s.res ∧ t.valid = s.valid) ∧
    (∀ r din, i = .tail r din → t.res = s.res ∧ t.valid = s.valid) ∧
    (i = .final → t.len = s.len) ∧
    (i ≠ .init → (t.err = s.err ∧ t.ecause = s.ecause) ∨
      (s.err = false ∧ t = { s with err := true, ecause := t.ecause }))

/-- R67: which command is legal in which phase, and the phase after it (with ERR = 0, and room for the bytes). -/
def Obligations.PhaseTableIsKept : Prop :=
  ∀ s : State, s.err = false →
    (∃ t, exec .nop s = .next t ∧ t.phase = s.phase) ∧
    (∃ t, exec .init s = .next t ∧ t.phase = .absorb) ∧
    (∀ din, s.phase = .absorb → s.len.toNat + 16 ≤ s.maxLen.toNat →
      ∃ t, exec (.block din) s = .next t ∧ t.phase = .absorb ∧ t.err = false) ∧
    (∀ din, s.phase ≠ .absorb → exec (.block din) s = .next { s with err := true, ecause := .seq }) ∧
    (∀ r din, r ≤ 15 → s.phase = .absorb → s.len.toNat + r ≤ s.maxLen.toNat →
      ∃ t, exec (.tail r din) s = .next t ∧ t.phase = .tailed ∧ t.err = false) ∧
    (∀ r din, r ≤ 15 → s.phase ≠ .absorb →
      exec (.tail r din) s = .next { s with err := true, ecause := .seq }) ∧
    (s.phase ≠ .done → ∃ t, exec .final s = .next t ∧ t.phase = .done ∧ t.err = false) ∧
    (s.phase = .done → exec .final s = .next { s with err := true, ecause := .seq })

/-- R15 on every step of a host that keeps duty 6: LEN counts the bytes exactly, never wraps, is set to 0 by INIT and
reset, and is left unchanged by every refused or discarded command; FINAL reads it. -/
def Obligations.LenCountsAbsorbedBytes : Prop :=
  ∀ (s t : State) (p : PortSample) (rest : List PortSample), s.host = p :: rest → p.Held → step s = .next t →
    (p.rst = true → t.len = 0) ∧
    (p.rst = false → p.cmdValid = false → t.len = s.len) ∧
    (p.rst = false → p.cmdValid = true →
      (p.cmd = 0x10 → t.len = 0) ∧
      (p.cmd = 0x20 →
        if s.err = false ∧ s.phase = .absorb ∧ s.len.toNat + 16 ≤ s.maxLen.toNat
        then t.len.toNat = s.len.toNat + 16 else t.len = s.len) ∧
      (∀ r, r ≤ 15 → p.cmd = 0x30 ||| BitVec.ofNat 8 r →
        if s.err = false ∧ s.phase = .absorb ∧ s.len.toNat + r ≤ s.maxLen.toNat
        then t.len.toNat = s.len.toNat + r else t.len = s.len) ∧
      (p.cmd ≠ 0x10 → p.cmd ≠ 0x20 → (p.cmd.toNat < 0x30 ∨ 0x3F < p.cmd.toNat) → t.len = s.len) ∧
      (p.cmd = 0x20 → s.err = false → s.phase = .absorb → s.maxLen.toNat < s.len.toNat + 16 →
        t = { s with host := rest, err := true, ecause := .len }) ∧
      (∀ r, r ≤ 15 → p.cmd = 0x30 ||| BitVec.ofNat 8 r → s.err = false → s.phase = .absorb →
        s.maxLen.toNat < s.len.toNat + r → t = { s with host := rest, err := true, ecause := .len }) ∧
      (p.cmd = 0x40 → s.err = false → s.phase ≠ .done → t.res = (fin s.h1 s.h2 s.len).1))

/-- R17 on every step of a host that keeps duty 6, and VALID beside it: only FINAL, INIT and reset write RES and
VALID; `res` shows RES. -/
def Obligations.OnlyFinalInitAndResetWriteTheResult : Prop :=
  ∀ (s t : State) (p : PortSample) (rest : List PortSample), s.host = p :: rest → p.Held → step s = .next t →
    t.resPort = t.res ∧
    (if p.rst = true ∨ (p.cmdValid = true ∧ p.cmd = 0x10) then t.res = 0 ∧ t.valid = false
     else if p.cmdValid = true ∧ p.cmd = 0x40 ∧ s.err = false ∧ s.phase ≠ .done
     then t.res = (fin s.h1 s.h2 s.len).1 ∧ t.res = t.h1 ∧ t.valid = true
     else t.res = s.res ∧ t.valid = s.valid)

/-- R75 and R82, the corner at the default MAX_LEN = 2^64 - 1 (the spec's inference): in ABSORB a BLOCK is refused
exactly at LEN = 2^64 - 16, and a TAIL never. The premise is the bookkeeping invariant. -/
def Obligations.LengthLimitAtTheDefaultMaxLen : Prop :=
  ∀ s : State, s.Inv → s.maxLen.toNat = 2 ^ 64 - 1 → s.err = false → s.phase = .absorb →
    (∀ din, (s.len.toNat = 2 ^ 64 - 16 → exec (.block din) s = .next { s with err := true, ecause := .len }) ∧
      (s.len.toNat ≠ 2 ^ 64 - 16 → ∃ t, exec (.block din) s = .next t ∧ t.err = false ∧
        t.len.toNat = s.len.toNat + 16 ∧ t.len.toNat ≤ 2 ^ 64 - 16)) ∧
    (∀ r din, r ≤ 15 → ∃ t, exec (.tail r din) s = .next t ∧ t.err = false ∧ t.len.toNat = s.len.toNat + r)

/-! Errors. -/

/-- R90 and R91 on a presented word: the check's order, and the four errors with their causes and codes; while
ERR = 1 only 0x10 runs. -/
def Obligations.CommandErrorsInCheckOrder : Prop :=
  (causeCode .noError = 0 ∧ causeCode .opcode = 1 ∧ causeCode .field = 2 ∧ causeCode .seq = 3 ∧
    causeCode .len = 4) ∧
  ∀ (s : State) (cmd : Byte) (din : Data) (rest : List PortSample),
    s.host = presented cmd din :: rest →
    let raised : Cause → Host.Outcome State Fault Refusal := fun c =>
      .next { s with host := rest, err := true, ecause := c }
    let r := cmd.toNat % 16
    let op := cmd.toNat / 16
    if s.err = true then
      step s = if cmd = 0x10 then exec .init { s with host := rest } else .next { s with host := rest }
    else if 5 ≤ op then step s = raised .opcode
    else if (op = 0 ∨ op = 1 ∨ op = 2 ∨ op = 4) ∧ r ≠ 0 then step s = raised .field
    else if (op = 2 ∨ op = 3) ∧ s.phase ≠ .absorb then step s = raised .seq
    else if op = 4 ∧ s.phase = .done then step s = raised .seq
    else if op = 2 ∧ s.maxLen.toNat < s.len.toNat + 16 then step s = raised .len
    else if op = 3 ∧ s.maxLen.toNat < s.len.toNat + r then step s = raised .len
    else ∃ t i, decode cmd din = .command i ∧ step s = exec i { s with host := rest } ∧ step s = .next t ∧
      t.err = false ∧ (op ≠ 1 → t.ecause = s.ecause)

/-- R93 on every step of a host that keeps duty 6: a step raises ERR exactly when the check of an accepted word gives an
error code, and then it writes ERR and ECAUSE (that code) and nothing else. -/
def Obligations.ErrorEntryIsPrecise : Prop :=
  ∀ (s t : State) (p : PortSample) (rest : List PortSample), s.host = p :: rest → p.Held → step s = .next t →
    s.err = false →
    (t.err = true ↔ p.rst = false ∧ p.cmdValid = true ∧ ∃ c, check s p.cmd = .error c) ∧
    (∀ c, p.rst = false → p.cmdValid = true → check s p.cmd = .error c →
      t = { s with host := rest, err := true, ecause := c } ∧ c ≠ .noError)

/-- R94: while ERR = 1 every word but 0x10 is discarded with no change to any state, and 0x10 runs. -/
def Obligations.ErrorGateDiscardsAllButInit : Prop :=
  ∀ (s : State) (cmd : Byte) (din : Data) (rest : List PortSample),
    s.host = presented cmd din :: rest → s.err = true →
    (cmd ≠ 0x10 → step s = .next { s with host := rest }) ∧
    (cmd = 0x10 → ∃ t, step s = .next t ∧ t.err = false ∧ t.ecause = .noError ∧ t.phase = .absorb ∧ t.len = 0)

/-- R95 on every step of a host that keeps duty 6: only INIT and reset leave ERR = 1; both clear ERR and ECAUSE and
discard the transaction. -/
def Obligations.OnlyInitAndResetLeaveTheError : Prop :=
  ∀ (s t : State) (p : PortSample) (rest : List PortSample), s.host = p :: rest → p.Held → step s = .next t →
    s.err = true →
    (t.err = false ↔ p.rst = true ∨ (p.cmdValid = true ∧ p.cmd = 0x10)) ∧
    (t.err = false → t = { s with h1 := 0, h2 := 0, len := 0, phase := .absorb, res := 0, valid := false,
                                  err := false, ecause := .noError, host := rest })

/-! The step, the ports, reset. -/

/-- R65 and R42: a step on a presented command that decodes to `i` is `exec i`, with the sample taken off what the
host drives; a presented word that is no command is discarded, or raises the error its decoding names. That the host's
samples stand in State is the model's choice (log entry 1). -/
def Obligations.StepRunsTheDecodedCommand : Prop :=
  ∀ (s : State) (cmd : Byte) (din : Data) (rest : List PortSample), s.host = presented cmd din :: rest →
    (∀ i, decode cmd din = .command i → step s = exec i { s with host := rest }) ∧
    (∀ c, decode cmd din = .illegal c →
      step s = if s.err = true then .next { s with host := rest }
               else .next { s with host := rest, err := true, ecause := c })

/-- The machine never stops (R89, R93, R112): every step answers a next state, and takes exactly one sample; MAX_LEN is
fixed (R7). With no sample left the state is held: the model's choice (log entries 1, 4, 6). -/
def Obligations.EveryStepAnswersAndTakesOneSample : Prop :=
  ∀ s : State, ∃ t, step s = .next t ∧ t.host = s.host.tail ∧ t.maxLen = s.maxLen ∧ (s.host = [] → t = s)

/-- R104: when no command is presented (and reset is not asserted) the core holds its state unchanged. -/
def Obligations.NothingPresentedHoldsTheState : Prop :=
  ∀ (s : State) (p : PortSample) (rest : List PortSample), s.host = p :: rest → p.rst = false →
    p.cmdValid = false → step s = .next { s with host := rest }

/-- R28 (with R105): after reset every state element has its reset value, from every state and whatever command is
presented meanwhile; they are the values INIT writes; STATUS reads 0x00. -/
def Obligations.ResetAndInitGiveTheResetValues : Prop :=
  (∀ (s : State) (p : PortSample) (rest : List PortSample), s.host = p :: rest → p.rst = true →
    step s = .next { s with h1 := 0, h2 := 0, len := 0, phase := .absorb, res := 0, valid := false, err := false,
                            ecause := .noError, host := rest }) ∧
  (∀ s : State, s.h1 = State.reset.h1 → s.h2 = State.reset.h2 → s.len = State.reset.len →
    s.phase = State.reset.phase → s.res = State.reset.res → s.valid = State.reset.valid →
    s.err = State.reset.err → s.ecause = State.reset.ecause →
    s.status = 0x00 ∧ ∀ u : State, exec .init u = .next { s with maxLen := u.maxLen, host := u.host, free := u.free }) ∧
  State.reset.h1 = 0 ∧ State.reset.h2 = 0 ∧ State.reset.len = 0 ∧ State.reset.phase = .absorb ∧
  State.reset.res = 0 ∧ State.reset.valid = false ∧ State.reset.err = false ∧ State.reset.ecause = .noError

/-- R21: the fields of STATUS, bit by bit; bit 7 reads 0, PHASE never reads 3, ECAUSE never reads 5 to 7; and the
typical values the rule lists. -/
def Obligations.StatusFieldsShowTheFlags : Prop :=
  (∀ s : State,
    s.status.getLsbD 0 = s.valid ∧ s.status.getLsbD 1 = s.err ∧
    s.status.extractLsb' 2 2 = phaseCode s.phase ∧ s.status.extractLsb' 2 2 ≠ 3 ∧
    s.status.extractLsb' 4 3 = causeCode s.ecause ∧ (s.status.extractLsb' 4 3).toNat ≤ 4 ∧
    s.status.getLsbD 7 = false) ∧
  (∀ s : State, s.valid = false → s.err = false → s.ecause = .noError → s.phase = .tailed → s.status = 0x04) ∧
  (∀ s : State, s.valid = true → s.err = false → s.ecause = .noError → s.phase = .done → s.status = 0x09) ∧
  (∀ s : State, s.valid = false → s.err = true → s.ecause = .seq → s.phase = .tailed → s.status = 0x36) ∧
  State.reset.status = 0x00

/-- 93 I5 (log entry 3): after a command the host did not hold steady, every state element is a free value; the
statement holds for every draw `s.free`, and says no value. -/
def Obligations.UnsteadyCommandLeavesFreeValues : Prop :=
  ∀ (s : State) (p : PortSample) (rest : List PortSample), s.host = p :: rest → p.rst = false →
    p.cmdValid = true → p.steady = false →
    step s = .next { h1 := Config.freeH1 s.free, h2 := Config.freeH2 s.free, len := Config.freeLen s.free,
                     phase := Config.freePhase s.free, res := Config.freeRes s.free,
                     valid := Config.freeValid s.free, err := Config.freeErr s.free,
                     ecause := Config.freeCause s.free, maxLen := s.maxLen, host := rest, free := s.free + 1 }

/-! Isolation. -/

/-- R81, and R32 for the formats that use no lane: two presentations of one command word whose data words agree on the
lanes the command uses give the same next state. -/
def Obligations.UnusedLanesHaveNoEffect : Prop :=
  ∀ (s : State) (cmd : Byte) (din din' : Data) (rest : List PortSample),
    (0x20 ≤ cmd.toNat → cmd.toNat < 0x30 → din = din') →
    (0x30 ≤ cmd.toNat → cmd.toNat < 0x40 → ∀ j, j < cmd.toNat - 0x30 → dinByte din j = dinByte din' j) →
    step { s with host := presented cmd din :: rest } = step { s with host := presented cmd din' :: rest }

/-- R14, R27, D11: H1 and H2 reach the outputs only through FINAL: two states that differ in H1 and H2 only, taking the
same sample of a host that keeps duty 6, which is no FINAL, show the same `res` and `status` after it, and still differ
in H1 and H2 only. Duty 6 is a premise because I5 leaves every element open after a command not held steady. -/
def Obligations.StateWordsReachOutputsOnlyThroughFinal : Prop :=
  ∀ (s : State) (h1 h2 : U64) (p : PortSample) (rest : List PortSample) (t u : State),
    s.host = p :: rest → p.Held → p.cmd ≠ 0x40 → step s = .next t → step { s with h1 := h1, h2 := h2 } = .next u →
    u = { t with h1 := u.h1, h2 := u.h2 } ∧ u.resPort = t.resPort ∧ u.status = t.status

/-! Invariants. -/

/-- Every step of a host that keeps duty 6 keeps the bookkeeping invariant (R15 to R19, R96; Safety.lean). -/
def Obligations.EveryStepKeepsTheInvariant : Prop :=
  ∀ s t : State, s.Inv → s.HostHolds → step s = .next t → t.Inv ∧ t.HostHolds

/-- The invariant holds right after reset, and after INIT or a reset step from any state whose MAX_LEN is legal. -/
def Obligations.ResetMeetsTheInvariant : Prop :=
  (State.reset.Inv ∧ State.reset.HostHolds) ∧
  (∀ s t : State, Config.leastMaxLen.toNat ≤ s.maxLen.toNat → exec .init s = .next t → t.Inv) ∧
  (∀ (s : State) (p : PortSample) (rest : List PortSample) (t : State),
    Config.leastMaxLen.toNat ≤ s.maxLen.toNat → s.host = p :: rest → p.rst = true → step s = .next t → t.Inv)

/-- R66: the end of a run is reached only by a FINAL that succeeds, and every such FINAL reaches it. -/
def Obligations.OnlyASuccessfulFinalReachesTheEnd : Prop :=
  ∀ (s t : State) (p : PortSample) (rest : List PortSample), s.host = p :: rest → p.Held → step s = .next t →
    s.atEnd = false →
    (t.atEnd = true ↔
      p.rst = false ∧ p.cmdValid = true ∧ p.cmd = 0x40 ∧ s.err = false ∧ s.phase ≠ .done)

/-! The core computes hash64. -/

/-- R18 and R87 as an inductive invariant: from every state that stands where a transaction stands after absorbing `b`,
one step of a host that keeps duty 6 gives a state that stands after absorbing what the sample adds; so whenever
VALID = 1, RES is hash64 of the bytes absorbed. -/
def Obligations.EveryStepKeepsTheAbsorbedInput : Prop :=
  ∀ (s t : State) (b : List Byte) (p : PortSample) (rest : List PortSample),
    s.host = p :: rest → p.Held → s.Represents b → step s = .next t →
    t.Represents (absorbedAfter s b p) ∧ (t.valid = true → t.res = refHash64 (absorbedAfter s b p))

/-- R87 (the spec's inference from R65 to R86): from any state by a transaction that begins with INIT, or from a state
with the reset values by one that leaves INIT out, with NOPs anywhere and any values on unused lanes, no error stands
at the end, LEN = L, VALID = 1, PHASE = DONE and RES = hash64(b). -/
def Obligations.TransactionComputesHash64 : Prop :=
  ∀ (b : List Byte) (s : State) (ps rest : List PortSample),
    s.host = ps ++ rest → b.length ≤ s.maxLen.toNat →
    (Transaction b ps ∨ (s.Fresh ∧ Absorbing b 0 ps)) →
    ∃ t : State, Host.Core.run Sys2Proof.core ps.length s = Host.Outcome.next t ∧
      t.err = false ∧ t.len.toNat = b.length ∧ t.valid = true ∧ t.phase = .done ∧ t.res = refHash64 b ∧
      t.atEnd = true ∧ t.host = rest

/-- R51: the commands `HASH b` expands to leave RES = hash64(b), from any state. -/
def Obligations.HashExpansionComputesHash64 : Prop :=
  ∀ (b : List Byte) (s : State) (rest : List PortSample),
    s.host = presentAll (hashCommands b) ++ rest → b.length ≤ s.maxLen.toNat →
    ∃ t : State, Host.Core.run Sys2Proof.core (hashCommands b).length s = Host.Outcome.next t ∧
      t.resultReadable = true ∧ t.faulted = false ∧ t.res = refHash64 b ∧ t.host = rest

/-- R88 (the spec's inference): hash64 of the empty input is 0, and FINAL right after INIT, or right after reset,
publishes it. -/
def Obligations.EmptyInputHashesToZero : Prop :=
  refHash64 [] = 0 ∧
  (∀ s : State, ∃ t u, exec .init s = .next t ∧ exec .final t = .next u ∧ u.res = 0 ∧ u.status = 0x09) ∧
  (∃ u, exec .final State.reset = .next u ∧ u.res = 0 ∧ u.status = 0x09)

/-- R50: the assembler puts the listed bytes on the lanes in increasing order and 0x00 on the others, and assembles a
BLOCK line of exactly 16 bytes, and a TAIL line of exactly r bytes, r at most 15, to that command. That a BLOCK or TAIL
line of another form assembles to nothing is the model's choice (log entry 12). -/
def Obligations.AssemblerPlacesBytesOnLanes : Prop :=
  (∀ bs : List Byte, bs.length ≤ 16 → ∀ j, j < 16 → dinByte (dinOf bs) j = bs.getD j 0) ∧
  (∀ bs : List Byte, assembleLine (.block bs) =
    if bs.length = 16 then some [.block (dinOf bs)] else none) ∧
  (∀ (r : Nat) (bs : List Byte), r ≤ 15 → bs.length = r →
    assembleLine (.tail r bs) = some [.tail r (dinOf bs)]) ∧
  (∀ (r : Nat) (bs : List Byte) (is : List Instr), assembleLine (.tail r bs) = some is →
    bs.length = r ∧ is = [.tail r (dinOf bs)] ∧ ∀ i ∈ is, i.wellFormed = true)
end

