-- ==== Sys2Proof/Laws/Datapath.lean ====
section
/-! SUPPORT. The operators in the library's own 64-bit operations, the lanes, and the two word gatherers
(R33, R57, R72, R77), and what the reference function reads of its input (R86). -/

namespace Sys2Proof.Machine

/-! Operators. -/

@[simp] theorem add64_eq (a b : U64) : add64 a b = a + b := rfl
@[simp] theorem mul64_eq (a b : U64) : mul64 a b = a * b := rfl
@[simp] theorem xor64_eq (a b : U64) : xor64 a b = a ^^^ b := rfl
@[simp] theorem shl64_eq (a : U64) (n : Nat) : shl64 a n = a <<< n := rfl
@[simp] theorem shr64_eq (a : U64) (n : Nat) : shr64 a n = a >>> n := rfl

/-- The formula of R57 is the library's rotation. -/
theorem rotl64_eq_rotateLeft (a : U64) {n : Nat} (h : n < 64) : rotl64 a n = a.rotateLeft n := by
  simp [rotl64, BitVec.rotateLeft, BitVec.rotateLeftAux, Nat.mod_eq_of_lt h]

/-! Lanes. -/

@[simp] theorem length_lanes (din : Data) (start n : Nat) : (lanes din start n).length = n := by simp [lanes]

theorem lanes_getD (din : Data) (start : Nat) {n j : Nat} (h : j < n) :
    (lanes din start n).getD j 0 = dinByte din (start + j) := by
  simp [lanes, h]

theorem dinByte_getLsbD (din : Data) (j : Nat) {k : Nat} (h : k < 8) :
    (dinByte din j).getLsbD k = din.getLsbD (8 * j + k) := by
  simp [dinByte, h]

/-! The little-endian gatherers. -/

/-- The loop of R77 only adds to its accumulator. -/
theorem gather_eq_xor (lane : Nat → Byte) (base n : Nat) (k : U64) :
    gather lane base n k = k ^^^ gather lane base n 0 := by
  induction n generalizing k with
  | zero => simp [gather]
  | succ n ih =>
    simp only [gather]
    rw [ih, ih (xor64 0 _)]
    simp [BitVec.xor_assoc]

/-- Two lane sources that agree on the lanes gathered give the same word. -/
theorem gather_congr {lane lane' : Nat → Byte} {base n : Nat} (h : ∀ j, j < n → lane (base + j) = lane' (base + j))
    (k : U64) : gather lane base n k = gather lane' base n k := by
  induction n generalizing k with
  | zero => rfl
  | succ n ih =>
    simp only [gather]
    rw [h n (by omega), ih fun j hj => h j (by omega)]

theorem le64From_append (i : Nat) (bs cs : List Byte) :
    le64From i (bs ++ cs) = le64From i bs ^^^ le64From (i + bs.length) cs := by
  induction bs generalizing i with
  | nil => simp [le64From]
  | cons b bs ih => simp [le64From, ih, BitVec.xor_assoc, show i + 1 + bs.length = i + (bs.length + 1) by omega]

/-- The descending loop of R77 and the ascending sum of R33 build the same word. -/
theorem gather_eq_le64 (lane : Nat → Byte) (base n : Nat) :
    gather lane base n 0 = le64 ((List.range n).map fun j => lane (base + j)) := by
  induction n with
  | zero => simp [gather, le64, le64From]
  | succ n ih =>
    rw [gather, gather_eq_xor, ih, List.range_succ, List.map_append]
    simp [le64, le64From_append, le64From, BitVec.xor_comm]

/-- A tail mix reads no lane from `r` on. -/
theorem tmix_congr {lane lane' : Nat → Byte} {r : Nat} (h : ∀ j, j < r → lane j = lane' j) (h1 h2 : U64) :
    tmix h1 h2 lane r = tmix h1 h2 lane' r := by
  have e1 : gather lane 0 (min r 8) 0 = gather lane' 0 (min r 8) 0 :=
    gather_congr (fun j hj => h _ (by omega)) 0
  have e2 : gather lane 8 (r - 8) 0 = gather lane' 8 (r - 8) 0 :=
    gather_congr (fun j hj => h _ (by omega)) 0
  simp only [tmix, tailAccum, e1, e2]

@[simp] theorem tmix_zero (h1 h2 : U64) (lane : Nat → Byte) : tmix h1 h2 lane 0 = (h1, h2) := rfl

/-! The reference function reads each byte at its own offset. -/

/-- The length word of an input that a 64-bit LEN counts is that LEN. -/
@[simp] theorem lengthWord_toNat (x : U64) : lengthWord x.toNat = x := by simp [lengthWord, x.isLt]

theorem slice_append_left {b c : List Byte} {start n : Nat} (h : start + n ≤ b.length) :
    slice (b ++ c) start n = slice b start n := by
  simp only [slice]
  rw [List.drop_append_of_le_length (by omega), List.take_append_of_le_length (by simp; omega)]

/-- Bytes after the first `n` blocks do not reach their words. -/
theorem absorbBlocks_append {b c : List Byte} {n : Nat} (h : 16 * n ≤ b.length) :
    absorbBlocks (b ++ c) n = absorbBlocks b n := by
  induction n with
  | zero => rfl
  | succ n ih =>
    simp only [absorbBlocks]
    rw [ih (by omega), slice_append_left (by omega), slice_append_left (by omega)]

end Sys2Proof.Machine
end

