-- ==== Sys2Proof/Laws/Decode.lean ====
section
/-! SUPPORT. What the decoder answers on each command's word, and the cases of its answer (R45, R47). -/

namespace Sys2Proof

variable (din : Data)

@[simp] theorem decode_nopWord : decode nopWord din = .command .nop := rfl
@[simp] theorem decode_initWord : decode initWord din = .command .init := rfl
@[simp] theorem decode_blockWord : decode blockWord din = .command (.block din) := rfl
@[simp] theorem decode_finalWord : decode finalWord din = .command .final := rfl

@[simp] theorem opField_tailWord (r : Nat) : opField (tailWord r) = 0x3 := by
  simp only [opField, tailWord]
  generalize BitVec.ofNat 4 r = x
  revert x; decide

@[simp] theorem rField_tailWord (r : Nat) : rField (tailWord r) = BitVec.ofNat 4 r := by
  simp only [rField, tailWord]
  generalize BitVec.ofNat 4 r = x
  revert x; decide

theorem toNat_ofNat4 {r : Nat} (h : r ≤ 15) : (BitVec.ofNat 4 r).toNat = r := by
  simp; omega

theorem decode_tailWord {r : Nat} (h : r ≤ 15) : decode (tailWord r) din = .command (.tail r din) := by
  simp [decode, Nat.mod_eq_of_lt (show r < 16 by omega)]

/-- TAIL's words are 0x30 to 0x3F (R45). -/
theorem toNat_tailWord {r : Nat} (h : r ≤ 15) : (tailWord r).toNat = 0x30 + r := by
  interval_cases r <;> rfl

theorem tailWord_inj {r r' : Nat} (h : r ≤ 15) (h' : r' ≤ 15) (e : tailWord r = tailWord r') : r = r' := by
  have := congrArg BitVec.toNat e
  rw [toNat_tailWord h, toNat_tailWord h'] at this
  omega

/-- TAIL's word is no word of another command. -/
theorem tailWord_ne_of_toNat {r : Nat} (h : r ≤ 15) {cmd : Byte} (hc : cmd.toNat < 0x30 ∨ 0x3F < cmd.toNat) :
    tailWord r ≠ cmd := by
  rintro rfl
  rw [toNat_tailWord h] at hc
  omega

/-- `cmd = 0x30 | r` (R82). -/
theorem or_eq_tailWord {r : Nat} (h : r ≤ 15) : (0x30 : Byte) ||| BitVec.ofNat 8 r = tailWord r := by
  interval_cases r <;> rfl

/-- A command word is its OP field above its R field. -/
theorem word_eq_fields (cmd : Byte) : cmd = opField cmd ++ rField cmd := by
  revert cmd; decide

/-- A word with OP = 3 is TAIL's word for the count in R. -/
theorem eq_tailWord_of_opField {cmd : Byte} (h : opField cmd = 0x3) : cmd = tailWord (rField cmd).toNat := by
  simpa [tailWord, h] using word_eq_fields cmd

/-- The partition of the 256 command words (R45). -/
theorem word_cases (cmd : Byte) :
    cmd = nopWord ∨ cmd = initWord ∨ cmd = blockWord ∨ opField cmd = 0x3 ∨ cmd = finalWord ∨
    ((opField cmd = 0x0 ∨ opField cmd = 0x1 ∨ opField cmd = 0x2 ∨ opField cmd = 0x4) ∧ rField cmd ≠ 0) ∨
    5 ≤ (opField cmd).toNat := by
  revert cmd; decide

/-- The cases of the decoder's answer: the five command words, E_FIELD and E_OPCODE. -/
theorem decode_cases (cmd : Byte) (din : Data) :
    (cmd = nopWord ∧ decode cmd din = .command .nop) ∨
    (cmd = initWord ∧ decode cmd din = .command .init) ∨
    (cmd = blockWord ∧ decode cmd din = .command (.block din)) ∨
    (∃ r, r ≤ 15 ∧ cmd = tailWord r ∧ decode cmd din = .command (.tail r din)) ∨
    (cmd = finalWord ∧ decode cmd din = .command .final) ∨
    ((opField cmd = 0x0 ∨ opField cmd = 0x1 ∨ opField cmd = 0x2 ∨ opField cmd = 0x4) ∧ rField cmd ≠ 0 ∧
      decode cmd din = .illegal .field) ∨
    (5 ≤ (opField cmd).toNat ∧ decode cmd din = .illegal .opcode) := by
  rcases word_cases cmd with h | h | h | h | h | ⟨h, hr⟩ | h
  · exact .inl ⟨h, by simp [h]⟩
  · exact .inr <| .inl ⟨h, by simp [h]⟩
  · exact .inr <| .inr <| .inl ⟨h, by simp [h]⟩
  · have hr : (rField cmd).toNat ≤ 15 := by have := (rField cmd).isLt; omega
    exact .inr <| .inr <| .inr <| .inl ⟨_, hr, eq_tailWord_of_opField h, by simp [decode, h]⟩
  · exact .inr <| .inr <| .inr <| .inr <| .inl ⟨h, by simp [h]⟩
  · exact .inr <| .inr <| .inr <| .inr <| .inr <| .inl
      ⟨h, hr, by rcases h with h | h | h | h <;> simpa [decode, h] using hr⟩
  · refine .inr <| .inr <| .inr <| .inr <| .inr <| .inr ⟨h, ?_⟩
    unfold decode
    repeat' split
    all_goals simp_all

end Sys2Proof
end

