-- ==== Sys2Proof/Laws/State.lean ====
section
/-! SUPPORT. One lemma per field per named update of the state, so that no proof unfolds a record update. -/

namespace Sys2Proof.Machine

variable (s : State)

/-! `State.setHost` -/

@[simp] theorem State.setHost_h1 (rest : List PortSample) : (s.setHost rest).h1 = s.h1 := rfl
@[simp] theorem State.setHost_h2 (rest : List PortSample) : (s.setHost rest).h2 = s.h2 := rfl
@[simp] theorem State.setHost_len (rest : List PortSample) : (s.setHost rest).len = s.len := rfl
@[simp] theorem State.setHost_phase (rest : List PortSample) : (s.setHost rest).phase = s.phase := rfl
@[simp] theorem State.setHost_res (rest : List PortSample) : (s.setHost rest).res = s.res := rfl
@[simp] theorem State.setHost_valid (rest : List PortSample) : (s.setHost rest).valid = s.valid := rfl
@[simp] theorem State.setHost_err (rest : List PortSample) : (s.setHost rest).err = s.err := rfl
@[simp] theorem State.setHost_ecause (rest : List PortSample) : (s.setHost rest).ecause = s.ecause := rfl
@[simp] theorem State.setHost_maxLen (rest : List PortSample) : (s.setHost rest).maxLen = s.maxLen := rfl
@[simp] theorem State.setHost_host (rest : List PortSample) : (s.setHost rest).host = rest := rfl
@[simp] theorem State.setHost_free (rest : List PortSample) : (s.setHost rest).free = s.free := rfl

/-! `State.setWords` -/

@[simp] theorem State.setWords_h1 (h : U64 × U64) : (s.setWords h).h1 = h.1 := rfl
@[simp] theorem State.setWords_h2 (h : U64 × U64) : (s.setWords h).h2 = h.2 := rfl
@[simp] theorem State.setWords_len (h : U64 × U64) : (s.setWords h).len = s.len := rfl
@[simp] theorem State.setWords_phase (h : U64 × U64) : (s.setWords h).phase = s.phase := rfl
@[simp] theorem State.setWords_res (h : U64 × U64) : (s.setWords h).res = s.res := rfl
@[simp] theorem State.setWords_valid (h : U64 × U64) : (s.setWords h).valid = s.valid := rfl
@[simp] theorem State.setWords_err (h : U64 × U64) : (s.setWords h).err = s.err := rfl
@[simp] theorem State.setWords_ecause (h : U64 × U64) : (s.setWords h).ecause = s.ecause := rfl
@[simp] theorem State.setWords_maxLen (h : U64 × U64) : (s.setWords h).maxLen = s.maxLen := rfl
@[simp] theorem State.setWords_host (h : U64 × U64) : (s.setWords h).host = s.host := rfl
@[simp] theorem State.setWords_free (h : U64 × U64) : (s.setWords h).free = s.free := rfl

/-! `State.addLen` -/

@[simp] theorem State.addLen_h1 (n : Nat) : (s.addLen n).h1 = s.h1 := rfl
@[simp] theorem State.addLen_h2 (n : Nat) : (s.addLen n).h2 = s.h2 := rfl
@[simp] theorem State.addLen_len (n : Nat) : (s.addLen n).len = s.len + BitVec.ofNat 64 n := rfl
@[simp] theorem State.addLen_phase (n : Nat) : (s.addLen n).phase = s.phase := rfl
@[simp] theorem State.addLen_res (n : Nat) : (s.addLen n).res = s.res := rfl
@[simp] theorem State.addLen_valid (n : Nat) : (s.addLen n).valid = s.valid := rfl
@[simp] theorem State.addLen_err (n : Nat) : (s.addLen n).err = s.err := rfl
@[simp] theorem State.addLen_ecause (n : Nat) : (s.addLen n).ecause = s.ecause := rfl
@[simp] theorem State.addLen_maxLen (n : Nat) : (s.addLen n).maxLen = s.maxLen := rfl
@[simp] theorem State.addLen_host (n : Nat) : (s.addLen n).host = s.host := rfl
@[simp] theorem State.addLen_free (n : Nat) : (s.addLen n).free = s.free := rfl

/-! `State.setPhase` -/

@[simp] theorem State.setPhase_h1 (ph : Phase) : (s.setPhase ph).h1 = s.h1 := rfl
@[simp] theorem State.setPhase_h2 (ph : Phase) : (s.setPhase ph).h2 = s.h2 := rfl
@[simp] theorem State.setPhase_len (ph : Phase) : (s.setPhase ph).len = s.len := rfl
@[simp] theorem State.setPhase_phase (ph : Phase) : (s.setPhase ph).phase = ph := rfl
@[simp] theorem State.setPhase_res (ph : Phase) : (s.setPhase ph).res = s.res := rfl
@[simp] theorem State.setPhase_valid (ph : Phase) : (s.setPhase ph).valid = s.valid := rfl
@[simp] theorem State.setPhase_err (ph : Phase) : (s.setPhase ph).err = s.err := rfl
@[simp] theorem State.setPhase_ecause (ph : Phase) : (s.setPhase ph).ecause = s.ecause := rfl
@[simp] theorem State.setPhase_maxLen (ph : Phase) : (s.setPhase ph).maxLen = s.maxLen := rfl
@[simp] theorem State.setPhase_host (ph : Phase) : (s.setPhase ph).host = s.host := rfl
@[simp] theorem State.setPhase_free (ph : Phase) : (s.setPhase ph).free = s.free := rfl

/-! `State.publish` -/

@[simp] theorem State.publish_h1 : s.publish.h1 = s.h1 := rfl
@[simp] theorem State.publish_h2 : s.publish.h2 = s.h2 := rfl
@[simp] theorem State.publish_len : s.publish.len = s.len := rfl
@[simp] theorem State.publish_phase : s.publish.phase = s.phase := rfl
@[simp] theorem State.publish_res : s.publish.res = s.h1 := rfl
@[simp] theorem State.publish_valid : s.publish.valid = true := rfl
@[simp] theorem State.publish_err : s.publish.err = s.err := rfl
@[simp] theorem State.publish_ecause : s.publish.ecause = s.ecause := rfl
@[simp] theorem State.publish_maxLen : s.publish.maxLen = s.maxLen := rfl
@[simp] theorem State.publish_host : s.publish.host = s.host := rfl
@[simp] theorem State.publish_free : s.publish.free = s.free := rfl

/-! `State.raise` -/

@[simp] theorem State.raise_h1 (c : Cause) : (s.raise c).h1 = s.h1 := rfl
@[simp] theorem State.raise_h2 (c : Cause) : (s.raise c).h2 = s.h2 := rfl
@[simp] theorem State.raise_len (c : Cause) : (s.raise c).len = s.len := rfl
@[simp] theorem State.raise_phase (c : Cause) : (s.raise c).phase = s.phase := rfl
@[simp] theorem State.raise_res (c : Cause) : (s.raise c).res = s.res := rfl
@[simp] theorem State.raise_valid (c : Cause) : (s.raise c).valid = s.valid := rfl
@[simp] theorem State.raise_err (c : Cause) : (s.raise c).err = true := rfl
@[simp] theorem State.raise_ecause (c : Cause) : (s.raise c).ecause = c := rfl
@[simp] theorem State.raise_maxLen (c : Cause) : (s.raise c).maxLen = s.maxLen := rfl
@[simp] theorem State.raise_host (c : Cause) : (s.raise c).host = s.host := rfl
@[simp] theorem State.raise_free (c : Cause) : (s.raise c).free = s.free := rfl

/-! `State.clear` -/

@[simp] theorem State.clear_h1 : s.clear.h1 = 0 := rfl
@[simp] theorem State.clear_h2 : s.clear.h2 = 0 := rfl
@[simp] theorem State.clear_len : s.clear.len = 0 := rfl
@[simp] theorem State.clear_phase : s.clear.phase = .absorb := rfl
@[simp] theorem State.clear_res : s.clear.res = 0 := rfl
@[simp] theorem State.clear_valid : s.clear.valid = false := rfl
@[simp] theorem State.clear_err : s.clear.err = false := rfl
@[simp] theorem State.clear_ecause : s.clear.ecause = .noError := rfl
@[simp] theorem State.clear_maxLen : s.clear.maxLen = s.maxLen := rfl
@[simp] theorem State.clear_host : s.clear.host = s.host := rfl
@[simp] theorem State.clear_free : s.clear.free = s.free := rfl

/-! `State.resetCore` -/

@[simp] theorem State.resetCore_h1 : s.resetCore.h1 = 0 := rfl
@[simp] theorem State.resetCore_h2 : s.resetCore.h2 = 0 := rfl
@[simp] theorem State.resetCore_len : s.resetCore.len = 0 := rfl
@[simp] theorem State.resetCore_phase : s.resetCore.phase = .absorb := rfl
@[simp] theorem State.resetCore_res : s.resetCore.res = 0 := rfl
@[simp] theorem State.resetCore_valid : s.resetCore.valid = false := rfl
@[simp] theorem State.resetCore_err : s.resetCore.err = false := rfl
@[simp] theorem State.resetCore_ecause : s.resetCore.ecause = .noError := rfl
@[simp] theorem State.resetCore_maxLen : s.resetCore.maxLen = s.maxLen := rfl
@[simp] theorem State.resetCore_host : s.resetCore.host = s.host := rfl
@[simp] theorem State.resetCore_free : s.resetCore.free = s.free := rfl

/-! `State.scramble` -/

@[simp] theorem State.scramble_h1 : s.scramble.h1 = Config.freeH1 s.free := rfl
@[simp] theorem State.scramble_h2 : s.scramble.h2 = Config.freeH2 s.free := rfl
@[simp] theorem State.scramble_len : s.scramble.len = Config.freeLen s.free := rfl
@[simp] theorem State.scramble_phase : s.scramble.phase = Config.freePhase s.free := rfl
@[simp] theorem State.scramble_res : s.scramble.res = Config.freeRes s.free := rfl
@[simp] theorem State.scramble_valid : s.scramble.valid = Config.freeValid s.free := rfl
@[simp] theorem State.scramble_err : s.scramble.err = Config.freeErr s.free := rfl
@[simp] theorem State.scramble_ecause : s.scramble.ecause = Config.freeCause s.free := rfl
@[simp] theorem State.scramble_maxLen : s.scramble.maxLen = s.maxLen := rfl
@[simp] theorem State.scramble_host : s.scramble.host = s.host := rfl
@[simp] theorem State.scramble_free : s.scramble.free = s.free + 1 := rfl

end Sys2Proof.Machine
end

