-- ==== Sys2Proof/Laws/Effects.lean ====
section
/-! SUPPORT. One lemma per field for the effects of BLOCK, TAIL and FINAL.
A proof cites these and never closes such an equation by `rfl`: comparing a whole effect with a state makes the
kernel unfold 64-bit multiplications on unknown words. They are proved by rewriting, step by step, for that reason. -/

namespace Sys2Proof.Machine

variable (s : State) (r : Nat) (din : Data)

/-! `absorbBlock` -/

@[simp] theorem absorbBlock_h1 : (absorbBlock din s).h1 = (bround s.h1 s.h2 (blockWords din).1 (blockWords din).2).1 := by
  rw [absorbBlock, State.addLen_h1, State.setWords_h1]
@[simp] theorem absorbBlock_h2 : (absorbBlock din s).h2 = (bround s.h1 s.h2 (blockWords din).1 (blockWords din).2).2 := by
  rw [absorbBlock, State.addLen_h2, State.setWords_h2]
@[simp] theorem absorbBlock_len : (absorbBlock din s).len = s.len + BitVec.ofNat 64 16 := by
  rw [absorbBlock, State.addLen_len, State.setWords_len]
@[simp] theorem absorbBlock_phase : (absorbBlock din s).phase = s.phase := by
  rw [absorbBlock, State.addLen_phase, State.setWords_phase]
@[simp] theorem absorbBlock_res : (absorbBlock din s).res = s.res := by
  rw [absorbBlock, State.addLen_res, State.setWords_res]
@[simp] theorem absorbBlock_valid : (absorbBlock din s).valid = s.valid := by
  rw [absorbBlock, State.addLen_valid, State.setWords_valid]
@[simp] theorem absorbBlock_err : (absorbBlock din s).err = s.err := by
  rw [absorbBlock, State.addLen_err, State.setWords_err]
@[simp] theorem absorbBlock_ecause : (absorbBlock din s).ecause = s.ecause := by
  rw [absorbBlock, State.addLen_ecause, State.setWords_ecause]
@[simp] theorem absorbBlock_maxLen : (absorbBlock din s).maxLen = s.maxLen := by
  rw [absorbBlock, State.addLen_maxLen, State.setWords_maxLen]
@[simp] theorem absorbBlock_host : (absorbBlock din s).host = s.host := by
  rw [absorbBlock, State.addLen_host, State.setWords_host]
@[simp] theorem absorbBlock_free : (absorbBlock din s).free = s.free := by
  rw [absorbBlock, State.addLen_free, State.setWords_free]

/-! `absorbTail` -/

@[simp] theorem absorbTail_h1 : (absorbTail r din s).h1 = (tmix s.h1 s.h2 (dinByte din) r).1 := by
  rw [absorbTail, State.setPhase_h1, State.addLen_h1, State.setWords_h1]
@[simp] theorem absorbTail_h2 : (absorbTail r din s).h2 = (tmix s.h1 s.h2 (dinByte din) r).2 := by
  rw [absorbTail, State.setPhase_h2, State.addLen_h2, State.setWords_h2]
@[simp] theorem absorbTail_len : (absorbTail r din s).len = s.len + BitVec.ofNat 64 r := by
  rw [absorbTail, State.setPhase_len, State.addLen_len, State.setWords_len]
@[simp] theorem absorbTail_phase : (absorbTail r din s).phase = .tailed := by
  rw [absorbTail, State.setPhase_phase]
@[simp] theorem absorbTail_res : (absorbTail r din s).res = s.res := by
  rw [absorbTail, State.setPhase_res, State.addLen_res, State.setWords_res]
@[simp] theorem absorbTail_valid : (absorbTail r din s).valid = s.valid := by
  rw [absorbTail, State.setPhase_valid, State.addLen_valid, State.setWords_valid]
@[simp] theorem absorbTail_err : (absorbTail r din s).err = s.err := by
  rw [absorbTail, State.setPhase_err, State.addLen_err, State.setWords_err]
@[simp] theorem absorbTail_ecause : (absorbTail r din s).ecause = s.ecause := by
  rw [absorbTail, State.setPhase_ecause, State.addLen_ecause, State.setWords_ecause]
@[simp] theorem absorbTail_maxLen : (absorbTail r din s).maxLen = s.maxLen := by
  rw [absorbTail, State.setPhase_maxLen, State.addLen_maxLen, State.setWords_maxLen]
@[simp] theorem absorbTail_host : (absorbTail r din s).host = s.host := by
  rw [absorbTail, State.setPhase_host, State.addLen_host, State.setWords_host]
@[simp] theorem absorbTail_free : (absorbTail r din s).free = s.free := by
  rw [absorbTail, State.setPhase_free, State.addLen_free, State.setWords_free]

/-! `finalize` -/

@[simp] theorem finalize_h1 : (finalize s).h1 = (fin s.h1 s.h2 s.len).1 := by
  rw [finalize, State.setPhase_h1, State.publish_h1, State.setWords_h1]
@[simp] theorem finalize_h2 : (finalize s).h2 = (fin s.h1 s.h2 s.len).2 := by
  rw [finalize, State.setPhase_h2, State.publish_h2, State.setWords_h2]
@[simp] theorem finalize_len : (finalize s).len = s.len := by
  rw [finalize, State.setPhase_len, State.publish_len, State.setWords_len]
@[simp] theorem finalize_phase : (finalize s).phase = .done := by
  rw [finalize, State.setPhase_phase]
@[simp] theorem finalize_res : (finalize s).res = (fin s.h1 s.h2 s.len).1 := by
  rw [finalize, State.setPhase_res, State.publish_res, State.setWords_h1]
@[simp] theorem finalize_valid : (finalize s).valid = true := by
  rw [finalize, State.setPhase_valid, State.publish_valid]
@[simp] theorem finalize_err : (finalize s).err = s.err := by
  rw [finalize, State.setPhase_err, State.publish_err, State.setWords_err]
@[simp] theorem finalize_ecause : (finalize s).ecause = s.ecause := by
  rw [finalize, State.setPhase_ecause, State.publish_ecause, State.setWords_ecause]
@[simp] theorem finalize_maxLen : (finalize s).maxLen = s.maxLen := by
  rw [finalize, State.setPhase_maxLen, State.publish_maxLen, State.setWords_maxLen]
@[simp] theorem finalize_host : (finalize s).host = s.host := by
  rw [finalize, State.setPhase_host, State.publish_host, State.setWords_host]
@[simp] theorem finalize_free : (finalize s).free = s.free := by
  rw [finalize, State.setPhase_free, State.publish_free, State.setWords_free]

end Sys2Proof.Machine
end

