-- ==== Sys2Proof/Laws/Ops.lean ====
section
/-! SUPPORT. What the check answers on each command's word (R91), and everything the shared step can do (R65). -/

namespace Sys2Proof.Machine

variable (s : State)

/-- The error gate (R94): while ERR = 1 every word but INIT's is discarded. -/
theorem check_of_err {s : State} {cmd : Byte} (he : s.err = true) (h : cmd ≠ initWord) :
    check s cmd = .discard := by
  simp [check, he, h]

@[simp] theorem check_nopWord : check s nopWord = if s.err = true then .discard else .ok := by
  simp [check, nopWord, initWord, opField, rField]

@[simp] theorem check_initWord : check s initWord = .ok := by
  simp [check, initWord, opField, rField]

@[simp] theorem check_blockWord : check s blockWord =
    if s.err = true then .discard
    else if s.phase ≠ .absorb then .error .seq
    else if s.maxLen.toNat < s.len.toNat + 16 then .error .len else .ok := by
  simp [check, blockWord, initWord, opField, rField]

@[simp] theorem check_finalWord : check s finalWord =
    if s.err = true then .discard else if s.phase = .done then .error .seq else .ok := by
  simp [check, finalWord, initWord, opField, rField]

theorem tailWord_ne_initWord (r : Nat) : tailWord r ≠ initWord := by
  intro h
  have := opField_tailWord r
  rw [h] at this
  exact absurd this (by decide)

theorem tailWord_ne_nopWord (r : Nat) : tailWord r ≠ nopWord := by
  intro h
  have := opField_tailWord r
  rw [h] at this
  exact absurd this (by decide)

theorem check_tailWord {r : Nat} (hr : r ≤ 15) : check s (tailWord r) =
    if s.err = true then .discard
    else if s.phase ≠ .absorb then .error .seq
    else if s.maxLen.toNat < s.len.toNat + r then .error .len else .ok := by
  simp [check, tailWord_ne_initWord, Nat.mod_eq_of_lt (show r < 16 by omega)]

/-- A word that is no command raises the error its decoding names, or is discarded while ERR = 1. -/
theorem check_of_illegal {cmd : Byte} {din : Data} {c : Cause} (h : decode cmd din = .illegal c) :
    check s cmd = if s.err = true then .discard else .error c := by
  rcases decode_cases cmd din with ⟨-, h'⟩ | ⟨-, h'⟩ | ⟨-, h'⟩ | ⟨_, -, -, h'⟩ | ⟨-, h'⟩ | ⟨ho, hr, h'⟩ | ⟨ho, h'⟩
  all_goals rw [h'] at h; cases h
  · have hi : cmd ≠ initWord := by
      rintro rfl; exact hr (by decide)
    have hr' : ¬ rField cmd = 0#4 := hr
    rcases ho with ho | ho | ho | ho <;> simp [check, ho, hr', hi]
  · have hi : cmd ≠ initWord := by
      rintro rfl; exact absurd ho (by decide)
    simp [check, ho, hi]

/-- The illegal decodings are E_OPCODE's and E_FIELD's; neither is "no error". -/
theorem cause_of_illegal {cmd : Byte} {din : Data} {c : Cause} (h : decode cmd din = .illegal c) :
    c = .opcode ∨ c = .field := by
  rcases decode_cases cmd din with ⟨-, h'⟩ | ⟨-, h'⟩ | ⟨-, h'⟩ | ⟨_, -, -, h'⟩ | ⟨-, h'⟩ | ⟨-, -, h'⟩ | ⟨-, h'⟩
  all_goals rw [h'] at h; cases h <;> simp

/-- The check's errors are the four of R90, never "no error", and arise only with ERR = 0 (R90, R94). -/
theorem check_error {cmd : Byte} {c : Cause} (h : check s cmd = .error c) : s.err = false ∧ c ≠ .noError := by
  unfold check at h
  repeat' split at h
  all_goals cases h <;> simp_all

variable {s}
variable {cmd : Byte} {effect : State → State}

/-- Everything the shared step can do: discard, error entry, or the effect. -/
theorem accept_next {t : State} (h : accept cmd effect s = .next t) :
    (check s cmd = .discard ∧ t = s) ∨ (∃ c, check s cmd = .error c ∧ t = s.raise c) ∨
    (check s cmd = .ok ∧ t = effect s) := by
  unfold accept at h
  split at h <;> cases h <;> simp_all

theorem accept_ok (h : check s cmd = .ok) : accept cmd effect s = .next (effect s) := by simp [accept, h]

theorem accept_discard (h : check s cmd = .discard) : accept cmd effect s = .next s := by simp [accept, h]

theorem accept_error {c : Cause} (h : check s cmd = .error c) : accept cmd effect s = .next (s.raise c) := by
  simp [accept, h]

/-- The shared step always answers a next state. -/
theorem accept_total (cmd : Byte) (effect : State → State) (s : State) :
    ∃ t, accept cmd effect s = .next t := by
  unfold accept; split <;> exact ⟨_, rfl⟩

theorem accept_illegal {din : Data} {c : Cause} (h : decode cmd din = .illegal c) :
    accept cmd effect s = if s.err = true then .next s else .next (s.raise c) := by
  split <;> rename_i he <;> simp [accept, check_of_illegal s h, he]

/-! Each command as a case split on the state (R68, R69, R75, R82, R85 with R91). -/

@[simp] theorem execNop_eq : execNop s = .next s := by
  by_cases he : s.err = true <;> simp [execNop, accept, he]

@[simp] theorem execInit_eq : execInit s = .next s.clear := by simp [execInit, accept]

theorem execBlock_eq (din : Data) : execBlock din s =
    if s.err = true then .next s
    else if s.phase ≠ .absorb then .next (s.raise .seq)
    else if s.maxLen.toNat < s.len.toNat + 16 then .next (s.raise .len)
    else .next (absorbBlock din s) := by
  simp only [execBlock, accept, check_blockWord]
  repeat' split
  all_goals simp_all

theorem execTail_eq {r : Nat} (hr : r ≤ 15) (din : Data) : execTail r din s =
    if s.err = true then .next s
    else if s.phase ≠ .absorb then .next (s.raise .seq)
    else if s.maxLen.toNat < s.len.toNat + r then .next (s.raise .len)
    else .next (absorbTail r din s) := by
  simp only [execTail, accept, check_tailWord s hr]
  repeat' split
  all_goals simp_all

theorem execFinal_eq : execFinal s =
    if s.err = true then .next s
    else if s.phase = .done then .next (s.raise .seq)
    else .next (finalize s) := by
  simp only [execFinal, accept, check_finalWord]
  repeat' split
  all_goals simp_all

/-! Everything each command with a check can do: discarded, E_SEQ, E_LEN, or its effect. -/

theorem execBlock_next {din : Data} {t : State} (h : execBlock din s = .next t) :
    (s.err = true ∧ t = s) ∨
    (s.err = false ∧ s.phase ≠ .absorb ∧ t = s.raise .seq) ∨
    (s.err = false ∧ s.phase = .absorb ∧ s.maxLen.toNat < s.len.toNat + 16 ∧ t = s.raise .len) ∨
    (s.err = false ∧ s.phase = .absorb ∧ s.len.toNat + 16 ≤ s.maxLen.toNat ∧ t = absorbBlock din s) := by
  rw [execBlock_eq] at h
  split at h
  · exact .inl ⟨‹_›, (Host.Outcome.next.inj h).symm⟩
  · have he : s.err = false := by simp_all
    split at h
    · exact .inr <| .inl ⟨he, ‹_›, (Host.Outcome.next.inj h).symm⟩
    · have hp : s.phase = .absorb := by simp_all
      split at h
      · exact .inr <| .inr <| .inl ⟨he, hp, ‹_›, (Host.Outcome.next.inj h).symm⟩
      · exact .inr <| .inr <| .inr ⟨he, hp, by omega, (Host.Outcome.next.inj h).symm⟩

theorem execTail_next {r : Nat} (hr : r ≤ 15) {din : Data} {t : State} (h : execTail r din s = .next t) :
    (s.err = true ∧ t = s) ∨
    (s.err = false ∧ s.phase ≠ .absorb ∧ t = s.raise .seq) ∨
    (s.err = false ∧ s.phase = .absorb ∧ s.maxLen.toNat < s.len.toNat + r ∧ t = s.raise .len) ∨
    (s.err = false ∧ s.phase = .absorb ∧ s.len.toNat + r ≤ s.maxLen.toNat ∧ t = absorbTail r din s) := by
  rw [execTail_eq hr] at h
  split at h
  · exact .inl ⟨‹_›, (Host.Outcome.next.inj h).symm⟩
  · have he : s.err = false := by simp_all
    split at h
    · exact .inr <| .inl ⟨he, ‹_›, (Host.Outcome.next.inj h).symm⟩
    · have hp : s.phase = .absorb := by simp_all
      split at h
      · exact .inr <| .inr <| .inl ⟨he, hp, ‹_›, (Host.Outcome.next.inj h).symm⟩
      · exact .inr <| .inr <| .inr ⟨he, hp, by omega, (Host.Outcome.next.inj h).symm⟩

theorem execFinal_next {t : State} (h : execFinal s = .next t) :
    (s.err = true ∧ t = s) ∨
    (s.err = false ∧ s.phase = .done ∧ t = s.raise .seq) ∨
    (s.err = false ∧ s.phase ≠ .done ∧ t = finalize s) := by
  rw [execFinal_eq] at h
  split at h
  · exact .inl ⟨‹_›, (Host.Outcome.next.inj h).symm⟩
  · have he : s.err = false := by simp_all
    split at h
    · exact .inr <| .inl ⟨he, ‹_›, (Host.Outcome.next.inj h).symm⟩
    · exact .inr <| .inr ⟨he, ‹_›, (Host.Outcome.next.inj h).symm⟩

/-! Each command that runs answers its effect. -/

theorem execBlock_ok (din : Data) (he : s.err = false) (hp : s.phase = .absorb)
    (hl : s.len.toNat + 16 ≤ s.maxLen.toNat) : execBlock din s = .next (absorbBlock din s) := by
  rw [execBlock_eq, if_neg (by simp [he]), if_neg (by simp [hp]), if_neg (by omega)]

theorem execTail_ok {r : Nat} (hr : r ≤ 15) (din : Data) (he : s.err = false) (hp : s.phase = .absorb)
    (hl : s.len.toNat + r ≤ s.maxLen.toNat) : execTail r din s = .next (absorbTail r din s) := by
  rw [execTail_eq hr, if_neg (by simp [he]), if_neg (by simp [hp]), if_neg (by omega)]

theorem execFinal_ok (he : s.err = false) (hp : s.phase ≠ .done) : execFinal s = .next (finalize s) := by
  rw [execFinal_eq, if_neg (by simp [he]), if_neg hp]

/-- Every command answers a next state, from every state. -/
theorem exec_total (i : Instr) (s : State) : ∃ t, exec i s = .next t := by
  cases i with
  | nop => exact accept_total nopWord (fun t => t) s
  | init => exact accept_total initWord State.clear s
  | block din => exact accept_total blockWord (absorbBlock din) s
  | tail r din => exact accept_total (tailWord r) (absorbTail r din) s
  | final => exact accept_total finalWord finalize s

end Sys2Proof.Machine
end

