-- ==== Sys2Proof/Laws/PerInstr.lean ====
section
/-! SUPPORT. Statements made per command: `EncodedWord` says that a well-formed command's word is selected by its own
row of the opcode map and by no other (R45). -/

namespace Sys2Proof.Laws.EncodedWord

/-- The rows that select the command's word are exactly the row of its mnemonic. -/
def Statement (i : Instr) : Prop :=
  i.wellFormed = true → (opcodeTable.filter fun row => row.selects (encodeWord i)).map (·.mnemonic) = [i.mnemonic]

theorem nop : Statement .nop := by intro _; decide

theorem init : Statement .init := by intro _; decide

theorem block (din : Data) : Statement (.block din) := by
  intro _
  show (opcodeTable.filter fun row => row.selects blockWord).map (·.mnemonic) = ["BLOCK"]
  decide

theorem tail (r : Nat) (din : Data) : Statement (.tail r din) := by
  intro _
  show (opcodeTable.filter fun row => row.selects (tailWord r)).map (·.mnemonic) = ["TAIL"]
  simp only [tailWord]
  generalize BitVec.ofNat 4 r = x
  revert x; decide

theorem final : Statement .final := by intro _; decide

end Sys2Proof.Laws.EncodedWord
end

