-- ==== Sys2Proof/Laws/Step.lean ====
section
/-! SUPPORT. Everything one step can do (R42, R65, R104, R105, 93 I5). -/

namespace Sys2Proof.Machine

variable {s : State} {p : PortSample} {rest : List PortSample}

theorem step_nil (h : s.host = []) : step s = .next s := by simp [step, h]

theorem step_cons (h : s.host = p :: rest) : step s = takeSample p (s.setHost rest) := by simp [step, h]

theorem takeSample_rst (h : p.rst = true) : takeSample p s = .next s.resetCore := by simp [takeSample, h]

theorem takeSample_idle (hr : p.rst = false) (h : p.cmdValid = false) : takeSample p s = .next s := by
  simp [takeSample, hr, h]

theorem takeSample_unsteady (hr : p.rst = false) (hv : p.cmdValid = true) (h : p.steady = false) :
    takeSample p s = .next s.scramble := by
  simp [takeSample, cmdReady, hr, hv, h]

theorem takeSample_steady (hr : p.rst = false) (hv : p.cmdValid = true) (h : p.steady = true) :
    takeSample p s = acceptCommand p.cmd p.din s := by
  simp [takeSample, cmdReady, hr, hv, h]

/-- The cases of a sample. -/
theorem takeSample_cases (p : PortSample) (s : State) :
    (p.rst = true ∧ takeSample p s = .next s.resetCore) ∨
    (p.rst = false ∧ p.cmdValid = false ∧ takeSample p s = .next s) ∨
    (p.rst = false ∧ p.cmdValid = true ∧ p.steady = true ∧ takeSample p s = acceptCommand p.cmd p.din s) ∨
    (p.rst = false ∧ p.cmdValid = true ∧ p.steady = false ∧ takeSample p s = .next s.scramble) := by
  cases hr : p.rst
  · cases hv : p.cmdValid
    · simp [takeSample_idle hr hv]
    · cases hs : p.steady
      · simp [takeSample_unsteady hr hv hs]
      · simp [takeSample_steady hr hv hs]
  · simp [takeSample_rst hr]

/-- An accepted command word: one of the five commands, or a word discarded or raised. -/
theorem acceptCommand_cases (cmd : Byte) (din : Data) (s : State) :
    (cmd = nopWord ∧ acceptCommand cmd din s = .next s) ∨
    (cmd = initWord ∧ acceptCommand cmd din s = .next s.clear) ∨
    (cmd = blockWord ∧ acceptCommand cmd din s = execBlock din s) ∨
    (∃ r, r ≤ 15 ∧ cmd = tailWord r ∧ acceptCommand cmd din s = execTail r din s) ∨
    (cmd = finalWord ∧ acceptCommand cmd din s = execFinal s) ∨
    (∃ c, decode cmd din = .illegal c ∧
      acceptCommand cmd din s = if s.err = true then .next s else .next (s.raise c)) := by
  rcases decode_cases cmd din with ⟨hc, h⟩ | ⟨hc, h⟩ | ⟨hc, h⟩ | ⟨r, hr, hc, h⟩ | ⟨hc, h⟩ | ⟨-, -, h⟩ | ⟨-, h⟩
  · exact .inl ⟨hc, by simp [acceptCommand, h, exec]⟩
  · exact .inr <| .inl ⟨hc, by simp [acceptCommand, h, exec]⟩
  · exact .inr <| .inr <| .inl ⟨hc, by simp [acceptCommand, h, exec]⟩
  · exact .inr <| .inr <| .inr <| .inl ⟨r, hr, hc, by simp [acceptCommand, h, exec]⟩
  · exact .inr <| .inr <| .inr <| .inr <| .inl ⟨hc, by simp [acceptCommand, h, exec]⟩
  · exact .inr <| .inr <| .inr <| .inr <| .inr ⟨_, h, by simp only [acceptCommand, h, accept_illegal h]⟩
  · exact .inr <| .inr <| .inr <| .inr <| .inr ⟨_, h, by simp only [acceptCommand, h, accept_illegal h]⟩

@[simp] theorem check_setHost (cmd : Byte) : check (s.setHost rest) cmd = check s cmd := rfl

/-- Everything a step can do on a sample that keeps duty 6 (R42, R65, R90 to R94, R104, R105). -/
theorem step_cases {t : State} (hs : s.host = p :: rest) (hp : p.Held) (h : step s = .next t) :
    (p.rst = true ∧ t = (s.setHost rest).resetCore) ∨
    (p.rst = false ∧ p.cmdValid = false ∧ t = s.setHost rest) ∨
    (p.rst = false ∧ p.cmdValid = true ∧
      ((p.cmd = nopWord ∧ t = s.setHost rest) ∨
       (p.cmd = initWord ∧ t = (s.setHost rest).clear) ∨
       (s.err = true ∧ p.cmd ≠ initWord ∧ t = s.setHost rest) ∨
       (s.err = false ∧ p.cmd ≠ nopWord ∧ p.cmd ≠ initWord ∧
         ∃ c, check s p.cmd = .error c ∧ t = (s.setHost rest).raise c) ∨
       (s.err = false ∧ p.cmd = blockWord ∧ s.phase = .absorb ∧ s.len.toNat + 16 ≤ s.maxLen.toNat ∧
         t = absorbBlock p.din (s.setHost rest)) ∨
       (s.err = false ∧ s.phase = .absorb ∧ ∃ r, r ≤ 15 ∧ p.cmd = tailWord r ∧
         s.len.toNat + r ≤ s.maxLen.toNat ∧ t = absorbTail r p.din (s.setHost rest)) ∨
       (s.err = false ∧ p.cmd = finalWord ∧ s.phase ≠ .done ∧ t = finalize (s.setHost rest)))) := by
  rw [step_cons hs] at h
  rcases takeSample_cases p (s.setHost rest) with ⟨a, e⟩ | ⟨a, b, e⟩ | ⟨a, b, -, e⟩ | ⟨a, b, c, -⟩
  · rw [e] at h; exact .inl ⟨a, (Host.Outcome.next.inj h).symm⟩
  · rw [e] at h; exact .inr <| .inl ⟨a, b, (Host.Outcome.next.inj h).symm⟩
  · refine .inr <| .inr ⟨a, b, ?_⟩
    rw [e] at h
    rcases acceptCommand_cases p.cmd p.din (s.setHost rest) with
      ⟨hc, e⟩ | ⟨hc, e⟩ | ⟨hc, e⟩ | ⟨r, hr, hc, e⟩ | ⟨hc, e⟩ | ⟨c, hd, e⟩
    · rw [e] at h; exact .inl ⟨hc, (Host.Outcome.next.inj h).symm⟩
    · rw [e] at h; exact .inr <| .inl ⟨hc, (Host.Outcome.next.inj h).symm⟩
    · rw [e] at h
      have hn : p.cmd ≠ nopWord ∧ p.cmd ≠ initWord := by rw [hc]; decide
      rcases execBlock_next h with ⟨he, ht⟩ | ⟨he, hp, ht⟩ | ⟨he, hp, hl, ht⟩ | ⟨he, hp, hl, ht⟩ <;>
        simp only [State.setHost_err, State.setHost_phase, State.setHost_len, State.setHost_maxLen] at *
      · exact .inr <| .inr <| .inl ⟨he, hn.2, ht⟩
      · exact .inr <| .inr <| .inr <| .inl ⟨he, hn.1, hn.2, .seq, by simp [hc, he, hp], ht⟩
      · exact .inr <| .inr <| .inr <| .inl ⟨he, hn.1, hn.2, .len, by simp [hc, he, hp, hl], ht⟩
      · exact .inr <| .inr <| .inr <| .inr <| .inl ⟨he, hc, hp, hl, ht⟩
    · rw [e] at h
      have hn : p.cmd ≠ nopWord ∧ p.cmd ≠ initWord := by
        rw [hc]; exact ⟨tailWord_ne_nopWord r, tailWord_ne_initWord r⟩
      rcases execTail_next hr h with ⟨he, ht⟩ | ⟨he, hp, ht⟩ | ⟨he, hp, hl, ht⟩ | ⟨he, hp, hl, ht⟩ <;>
        simp only [State.setHost_err, State.setHost_phase, State.setHost_len, State.setHost_maxLen] at *
      · exact .inr <| .inr <| .inl ⟨he, hn.2, ht⟩
      · exact .inr <| .inr <| .inr <| .inl
          ⟨he, hn.1, hn.2, .seq, by simp [hc, check_tailWord s hr, he, hp], ht⟩
      · exact .inr <| .inr <| .inr <| .inl
          ⟨he, hn.1, hn.2, .len, by simp [hc, check_tailWord s hr, he, hp, hl], ht⟩
      · exact .inr <| .inr <| .inr <| .inr <| .inr <| .inl ⟨he, hp, r, hr, hc, hl, ht⟩
    · rw [e] at h
      have hn : p.cmd ≠ nopWord ∧ p.cmd ≠ initWord := by rw [hc]; decide
      rcases execFinal_next h with ⟨he, ht⟩ | ⟨he, hp, ht⟩ | ⟨he, hp, ht⟩ <;>
        simp only [State.setHost_err, State.setHost_phase] at *
      · exact .inr <| .inr <| .inl ⟨he, hn.2, ht⟩
      · exact .inr <| .inr <| .inr <| .inl ⟨he, hn.1, hn.2, .seq, by simp [hc, he, hp], ht⟩
      · exact .inr <| .inr <| .inr <| .inr <| .inr <| .inr ⟨he, hc, hp, ht⟩
    · rw [e] at h
      have hn : p.cmd ≠ nopWord ∧ p.cmd ≠ initWord := by
        constructor <;> intro hc <;> rw [hc] at hd <;> simp at hd
      have hk := check_of_illegal s hd
      split at h
      · exact .inr <| .inr <| .inl ⟨‹_›, hn.2, (Host.Outcome.next.inj h).symm⟩
      · have he : s.err = false := by simp_all
        exact .inr <| .inr <| .inr <| .inl
          ⟨he, hn.1, hn.2, c, by simp [hk, he], (Host.Outcome.next.inj h).symm⟩
  · rw [hp a b] at c; cases c

/-- A run is one step and then a run. -/
theorem run_succ {t : State} (n : Nat) (h : step s = .next t) :
    Host.Core.run Sys2Proof.core (n + 1) s = Host.Core.run Sys2Proof.core n t := by
  have h' : Sys2Proof.core.step s = .next t := h
  simp only [Host.Core.run, h']

end Sys2Proof.Machine
end

