-- ==== Sys2Proof/Tests/Slice0.lean ====
section
/-! SUPPORT. The model's own tests, with expected results from spec/95_test_vectors.md and the rules' examples, and one
witness for the hypotheses of each statement. -/

namespace Sys2Proof.Tests

open Sys2Proof Sys2Proof.Machine

/-! WellFormed: the one check, TAIL's count. -/

theorem test_wellFormed_refuses_tail_16 : (Instr.tail 16 0).wellFormed = false := by decide

theorem test_wellFormed_takes_tail_15 : (Instr.tail 15 0).wellFormed = true := by decide

/-! Decoding: words written out from R43 and R45. -/

theorem test_decode_nop : decode 0b0000_0000 0 = .command .nop := by decide

theorem test_decode_init : decode 0b0001_0000 0 = .command .init := by decide

theorem test_decode_block : decode 0b0010_0000 7 = .command (.block 7) := by decide

theorem test_decode_tail_11 : decode 0b0011_1011 7 = .command (.tail 11 7) := by decide

theorem test_decode_final : decode 0b0100_0000 0 = .command .final := by decide

theorem test_decode_reserved_field : decode 0b0010_1111 0 = .illegal .field := by decide

theorem test_decode_reserved_opcode : decode 0b1111_0011 0 = .illegal .opcode := by decide

theorem test_table_word_tail_3 : decodeTableWord 8 0x33 = some (.tail 3 0) := by decide

theorem test_opcode_rows_do_not_overlap :
    opcodeTable.Pairwise fun a b => (a.pattern ^^^ b.pattern) &&& (a.mask &&& b.mask) ≠ 0 := by decide

/-! The datapath (95 sections 2.1 to 2.5). -/

theorem test_rotl64_33 : rotl64 0x8000000000000001 33 = 0x0000000300000000 := by decide

theorem test_shr64_is_logical : shr64 0x8000000000000000 33 = 0x0000000040000000 := by decide

theorem test_mixK1_ff : mixK1 0xFF = 0xB3681610D0159540 := by decide

theorem test_mixK2_ff : mixK2 0xFF = 0xF6FC3E035E414568 := by decide

theorem test_bround_wraps :
    bround 0xFFFFFFFFFFFFFFFF 0xFFFFFFFFFFFFFFFF 0 0 = (0x0000000052DCE71F, 0x00000001D699DE4B) := by decide

theorem test_fmix64_top_bit : fmix64 0x8000000000000000 = 0x8F780810AF31A493 := by decide

theorem test_fin_all_ones :
    fin 0 0 0xFFFFFFFFFFFFFFFF = (0xE4C18F38C65BD6ED, 0x8EFD8AE920620DAF) := by decide

/-- The data word of 95 section 2.3: 00 01 .. 0f on lanes 0 to 15. -/
def ascBlock : Data := 0x0F0E0D0C0B0A09080706050403020100

/-- The data word of 95 section 2.4: 01 02 .. 0f, and garbage on lane 15. -/
def ascTail : Data := 0xAA0F0E0D0C0B0A090807060504030201

theorem test_block_decoder : blockWords ascBlock = (0x0706050403020100, 0x0F0E0D0C0B0A0908) := by decide

theorem test_tmix_8_has_no_k2_stage : tmix 0 0 (dinByte ascTail) 8 = (0x84912EA0966DB987, 0) := by decide

theorem test_tmix_15 : tmix 0 0 (dinByte ascTail) 15 = (0x84912EA0966DB987, 0x3E9927EB603CDCD6) := by decide

theorem test_refHash64_asc17 :
    refHash64 ((List.range 17).map (BitVec.ofNat 8)) = 0x5C76F40F9FE7C20E := by decide

/-! The commands, one step each, on a small state. -/

/-- The reset state with the host presenting one command. -/
def atPort (cmd : Byte) (din : Data) : State := { State.reset with host := [presented cmd din] }

/-- What a step leaves, or the state itself where it stops (it never does). -/
def after (s : State) : State :=
  match step s with
  | .next t => t
  | .fault _ => s
  | .refused _ => s

/-- The state of 95 P2 after its BLOCK, with the host presenting one command. -/
def afterBlock (cmd : Byte) (din : Data) : State :=
  { atPort cmd din with h1 := 0xDCAC505EA5C458DF, h2 := 0x72927C4BE244042D, len := 16 }

/-- The example state of R69 and 95 P5: finalized, then E_SEQ. -/
def erred (cmd : Byte) : State :=
  { atPort cmd 0 with h1 := 0xC66D9022B62F500F, h2 := 0x1C050A6E34C31151, len := 32, phase := .done,
                      res := 0xC66D9022B62F500F, valid := true, err := true, ecause := .seq }

theorem test_nop_after_reset : (after (atPort 0x00 0)).status = 0x00 := by decide

theorem test_nop_discarded : after (erred 0x00) = { erred 0x00 with host := [] } := by decide

theorem test_init_clears_the_error : after (erred 0x10) = State.reset := by decide

theorem test_init_with_field_is_discarded : (after (erred 0x11)).status = 0x3B := by decide

theorem test_block_from_reset :
    after (atPort 0x20 ascBlock) = { afterBlock 0x20 0 with host := [] } := by decide

theorem test_block_length_limit :
    (after { atPort 0x20 0 with len := 0xFFFFFFFFFFFFFFF0 }).status = 0x42 := by decide

theorem test_tail_ignores_unused_lanes :
    after (afterBlock 0x31 0xAAAAAAAAAAAAAAAAAAAAAAAAAAAAAA10) =
      { afterBlock 0x31 0 with h1 := 0xC40CBC8D5DD827A7, len := 17, phase := .tailed, host := [] } := by decide

theorem test_second_tail_is_out_of_sequence :
    (after { atPort 0x30 0 with phase := .tailed }).status = 0x36 := by decide

theorem test_final_publishes :
    after { atPort 0x40 0 with h1 := 0xC40CBC8D5DD827A7, h2 := 0x72927C4BE244042D, len := 17, phase := .tailed } =
      { State.reset with h1 := 0x5C76F40F9FE7C20E, h2 := 0xC15F026B9EDAA824, len := 17, phase := .done,
                         res := 0x5C76F40F9FE7C20E, valid := true } := by decide

theorem test_final_twice_is_out_of_sequence :
    (after { atPort 0x40 0 with phase := .done, valid := true }).status = 0x3B := by decide

theorem test_reserved_opcode : (after (atPort 0xF3 0)).status = 0x12 := by decide

theorem test_reserved_field : (after (atPort 0x41 0)).status = 0x22 := by decide

theorem test_field_before_sequence :
    (after { atPort 0x21 0 with phase := .done, valid := true }).status = 0x2B := by decide

theorem test_reset_accepts_no_command :
    after { erred 0x20 with host := [⟨true, true, 0x20, 0, true⟩] } = State.reset := by decide

theorem test_fetch_word_runs : (after (State.reset.withFetchWord 8 0x33)).len = 3 := by decide

/-! The assembler (R50, R51). -/

theorem test_assemble_tail :
    assembleText "tail  1, 10   ; one byte".toList = some [.tail 1 0x10] := by decide

theorem test_assemble_listing :
    (assembleText "TAIL 1, 10".toList).map (·.map listing) =
      some ["cmd=0x31 din=10000000000000000000000000000000".toList] := by decide

theorem test_assemble_empty_hash : assembleText "HASH".toList = some [.init, .final] := by decide

theorem test_assemble_short_block : assembleText "BLOCK 00".toList = none := by decide

/-! Witnesses: for each statement with hypotheses, a state and operands that meet them, at the bounds of each clause. -/

theorem witness_DecodeOfEncodeIsTheCommand :
    (Instr.tail 15 0).wellFormed = true ∧ (Instr.tail 0 0).wellFormed = true := by decide

theorem witness_EncodeOfDecodeIsTheWord :
    decode 0x3F ascTail = .command (.tail 15 ascTail) ∧ (Instr.tail 15 ascTail).format ≠ .z := by decide

theorem witness_EveryCommandWordIsOneRowOrRaises :
    (0x30 ≤ (0x30 : Byte).toNat ∧ (0x3F : Byte).toNat ≤ 0x3F) ∧ (0x01 : Byte).toNat = 0x01 ∧
    (0x0F : Byte).toNat ≤ 0x0F ∧ (0x11 : Byte).toNat = 0x11 ∧ (0x1F : Byte).toNat ≤ 0x1F ∧
    (0x21 : Byte).toNat = 0x21 ∧ (0x2F : Byte).toNat ≤ 0x2F ∧ (0x41 : Byte).toNat = 0x41 ∧
    (0x4F : Byte).toNat ≤ 0x4F ∧ 0x50 ≤ (0x50 : Byte).toNat ∧ 0x50 ≤ (0xFF : Byte).toNat ∧
    State.reset.err = false ∧ opcodeTable ≠ [] := by decide

theorem witness_RotateAndShiftMoveEachBit : (0 < 1 ∧ 1 < 64 ∧ 0 < 64) ∧ (0 < 63 ∧ 63 < 64) := by decide

theorem witness_LittleEndianWordPlacesEachByte :
    (lanes ascBlock 0 8).length ≤ 8 ∧ 7 < (lanes ascBlock 0 8).length ∧ 8 * ([] : List Byte).length ≤ 0 := by decide

theorem witness_TailAccumulatorIsPaddedRead : 0 ≤ 15 ∧ 8 ≤ 15 ∧ 9 ≤ 15 ∧ 15 ≤ 15 := by decide

theorem witness_NopChangesNothing :
    0x01 ≤ (0x01 : Byte).toNat ∧ (0x0F : Byte).toNat ≤ 0x0F ∧ State.reset.err = false := by decide

theorem witness_InitClearsEveryStateElement :
    0x11 ≤ (0x11 : Byte).toNat ∧ (0x1F : Byte).toNat ≤ 0x1F ∧ (erred 0x11).err = true ∧
      (Instr.tail 15 0).wellFormed = true ∧ Instr.tail 15 0 ≠ .init ∧ (0x11 : Byte) ≠ 0x10 ∧ (0x0F : Byte) ≠ 0x10 := by decide

/-- The reset state of a core whose MAX_LEN is `n`. -/
def limited (n : U64) : State := { State.reset with maxLen := n }

theorem witness_BlockAbsorbsSixteenBytes :
    (limited 16).err = false ∧ (limited 16).phase = .absorb ∧
      (limited 16).len.toNat + 16 ≤ (limited 16).maxLen.toNat := by decide

theorem witness_TailAbsorbsItsBytes :
    15 ≤ 15 ∧ (limited 15).err = false ∧ (limited 15).phase = .absorb ∧
      (limited 15).len.toNat + 15 ≤ (limited 15).maxLen.toNat := by decide

theorem witness_FinalPublishesTheFinalizedWord :
    State.reset.err = false ∧ State.reset.phase ≠ .done ∧
      ({ State.reset with phase := .tailed } : State).phase ≠ .done := by decide

theorem witness_CommandsChangeOnlyWhatTheyName :
    (Instr.tail 15 0).wellFormed = true ∧ (∃ t, exec (.tail 15 0) State.reset = .next t) ∧
      (∃ t, exec .final State.reset = .next t) ∧ ∃ t, exec (.block 0) (erred 0) = .next t :=
  ⟨by decide, exec_total _ _, exec_total _ _, exec_total _ _⟩

theorem witness_PhaseTableIsKept :
    State.reset.err = false ∧ State.reset.phase = .absorb ∧
      State.reset.len.toNat + 16 ≤ State.reset.maxLen.toNat ∧
      ({ State.reset with phase := .tailed } : State).phase ≠ .absorb ∧
      ({ State.reset with phase := .done } : State).phase = .done := by decide

/-- The premises of the statements about a step that keeps duty 6. -/
theorem witness_held_step (cmd : Byte) (din : Data) :
    (atPort cmd din).host = presented cmd din :: [] ∧ (presented cmd din).Held ∧
      ∃ t, step (atPort cmd din) = .next t := by
  refine ⟨rfl, fun _ _ => rfl, ?_⟩
  rw [step_cons rfl, takeSample_steady rfl rfl rfl]
  unfold acceptCommand
  split
  · exact exec_total _ _
  · exact accept_total _ _ _

theorem witness_LenCountsAbsorbedBytes :
    ((∃ t, step (atPort 0x3F 0) = .next t) ∧ (0x3F : Byte) = 0x30 ||| BitVec.ofNat 8 15) ∧
    ((∃ t, step (atPort 0x30 0) = .next t) ∧ (0x30 : Byte) = 0x30 ||| BitVec.ofNat 8 0) ∧
    ((∃ t, step (atPort 0x20 0) = .next t) ∧
      ({ atPort 0x20 0 with maxLen := 15 } : State).maxLen.toNat < (atPort 0x20 0).len.toNat + 16) ∧
    ((limited 14).maxLen.toNat < (limited 14).len.toNat + 15) ∧
    ((0x2F : Byte).toNat < 0x30 ∧ 0x3F < (0x40 : Byte).toNat) :=
  ⟨⟨(witness_held_step _ _).2.2, by decide⟩, ⟨(witness_held_step _ _).2.2, by decide⟩,
    ⟨(witness_held_step _ _).2.2, by decide⟩, by decide, by decide⟩

theorem witness_OnlyFinalInitAndResetWriteTheResult :
    (∃ t, step (atPort 0x40 0) = .next t) ∧ (∃ t, step (atPort 0x10 0) = .next t) ∧
      ∃ t, step (atPort 0x20 0) = .next t :=
  ⟨(witness_held_step _ _).2.2, (witness_held_step _ _).2.2, (witness_held_step _ _).2.2⟩

/-- The last state from which the default MAX_LEN refuses a BLOCK (R75). -/
def nearlyFull : State := { State.reset with len := 0xFFFFFFFFFFFFFFF0 }

theorem witness_LengthLimitAtTheDefaultMaxLen :
    nearlyFull.Inv ∧ nearlyFull.maxLen.toNat = 2 ^ 64 - 1 ∧ nearlyFull.err = false ∧ nearlyFull.phase = .absorb ∧
      nearlyFull.len.toNat = 2 ^ 64 - 16 ∧ State.reset.Inv ∧ State.reset.len.toNat ≠ 2 ^ 64 - 16 :=
  ⟨by constructor <;> decide, by decide, by decide, by decide, by decide, by constructor <;> decide, by decide⟩

theorem witness_CommandErrorsInCheckOrder :
    (erred 0x10).host = presented 0x10 0 :: [] ∧ (erred 0x10).err = true ∧
    5 ≤ (0x50 : Byte).toNat / 16 ∧ (0x4F : Byte).toNat / 16 = 4 ∧ (0x4F : Byte).toNat % 16 ≠ 0 ∧
    ({ atPort 0x20 0 with phase := .tailed } : State).phase ≠ .absorb ∧
    ({ atPort 0x40 0 with phase := .done } : State).phase = .done ∧
    (limited 15).maxLen.toNat < (limited 15).len.toNat + 16 ∧
    (limited 14).maxLen.toNat < (limited 14).len.toNat + (0x3F : Byte).toNat % 16 ∧
    (atPort 0x3F 0).host = presented 0x3F 0 :: [] ∧ (atPort 0x3F 0).err = false := by decide

theorem witness_ErrorEntryIsPrecise :
    (∃ t, step (atPort 0x50 0) = .next t) ∧ (atPort 0x50 0).err = false ∧
      check (atPort 0x50 0) 0x50 = .error .opcode :=
  ⟨(witness_held_step _ _).2.2, by decide, by decide⟩

theorem witness_ErrorGateDiscardsAllButInit :
    (erred 0x40).host = presented 0x40 0 :: [] ∧ (erred 0x40).err = true ∧ (0x40 : Byte) ≠ 0x10 ∧
      (erred 0x10).host = presented 0x10 0 :: [] := by decide

theorem witness_OnlyInitAndResetLeaveTheError :
    (erred 0x10).host = presented 0x10 0 :: [] ∧ (presented 0x10 0).Held ∧ (erred 0x10).err = true ∧
      ∃ t, step (erred 0x10) = .next t ∧ t.err = false :=
  ⟨rfl, fun _ _ => rfl, rfl, after (erred 0x10), rfl, by decide⟩

theorem witness_StepRunsTheDecodedCommand :
    (atPort 0x20 ascBlock).host = presented 0x20 ascBlock :: [] ∧
      decode 0x20 ascBlock = .command (.block ascBlock) ∧ decode 0x21 ascBlock = .illegal .field := by decide

theorem witness_NothingPresentedHoldsTheState :
    ({ erred 0 with host := [⟨false, false, 0x10, 0, true⟩] } : State).host = [⟨false, false, 0x10, 0, true⟩] := rfl

theorem witness_ResetAndInitGiveTheResetValues :
    ({ erred 0 with host := [⟨true, true, 0x20, 0, true⟩] } : State).host = [⟨true, true, 0x20, 0, true⟩] ∧
      (limited 5).h1 = State.reset.h1 ∧ (limited 5).ecause = State.reset.ecause := ⟨rfl, rfl, rfl⟩

theorem witness_StatusFieldsShowTheFlags :
    (after (atPort 0x33 0)).valid = false ∧ (after (atPort 0x33 0)).err = false ∧
      (after (atPort 0x33 0)).ecause = .noError ∧ (after (atPort 0x33 0)).phase = .tailed ∧
      (after (atPort 0x40 0)).valid = true ∧ (after (atPort 0x40 0)).phase = .done ∧
      (after { atPort 0x20 0 with phase := .tailed }).ecause = .seq := by decide

theorem witness_UnsteadyCommandLeavesFreeValues :
    ({ State.reset with host := [⟨false, true, 0x20, 0, false⟩] } : State).host = [⟨false, true, 0x20, 0, false⟩] := rfl

theorem witness_UnusedLanesHaveNoEffect :
    (0x30 ≤ (0x31 : Byte).toNat ∧ (0x31 : Byte).toNat < 0x40 ∧
      ∀ j, j < (0x31 : Byte).toNat - 0x30 →
        dinByte 0x10 j = dinByte 0xAAAAAAAAAAAAAAAAAAAAAAAAAAAAAA10 j) ∧ ¬ 0x20 ≤ (0x10 : Byte).toNat := by decide

theorem witness_StateWordsReachOutputsOnlyThroughFinal :
    (atPort 0x20 0).host = presented 0x20 0 :: [] ∧ (presented 0x20 0).Held ∧ (presented 0x20 0).cmd ≠ 0x40 ∧
      (∃ t, step (atPort 0x20 0) = .next t) ∧
      ∃ u, step { atPort 0x20 0 with h1 := 1, h2 := 2 } = .next u :=
  ⟨rfl, fun _ _ => rfl, by decide, ⟨_, rfl⟩, ⟨_, rfl⟩⟩

theorem witness_EveryStepKeepsTheInvariant :
    (atPort 0x40 0).Inv ∧ (atPort 0x40 0).HostHolds ∧ ∃ t, step (atPort 0x40 0) = .next t :=
  ⟨by constructor <;> decide, fun p hp => by simp [atPort, presented] at hp; subst hp; exact fun _ _ => rfl,
    (witness_held_step _ _).2.2⟩

theorem witness_ResetMeetsTheInvariant :
    Config.leastMaxLen.toNat ≤ (limited 1).maxLen.toNat ∧ (∃ t, exec .init (limited 1) = .next t) ∧
      ∃ t, step { limited 1 with host := [⟨true, false, 0, 0, true⟩] } = .next t :=
  ⟨by decide, exec_total _ _, ⟨_, rfl⟩⟩

theorem witness_OnlyASuccessfulFinalReachesTheEnd :
    (atPort 0x40 0).atEnd = false ∧ (after (atPort 0x40 0)).atEnd = true ∧
      ∃ t, step (atPort 0x40 0) = .next t :=
  ⟨by decide, by decide, (witness_held_step _ _).2.2⟩

theorem witness_EveryStepKeepsTheAbsorbedInput :
    (atPort 0x20 ascBlock).Represents [] ∧ (presented 0x20 ascBlock).Held ∧
      (∃ t, step (atPort 0x20 ascBlock) = .next t) ∧
      absorbedAfter (atPort 0x20 ascBlock) [] (presented 0x20 ascBlock) = lanes ascBlock 0 16 ∧
      ({ atPort 0x40 0 with phase := .tailed } : State).Represents [] :=
  ⟨⟨rfl, rfl, rfl, rfl, rfl⟩, fun _ _ => rfl, (witness_held_step _ _).2.2, by decide, ⟨rfl, rfl, rfl, rfl⟩⟩

/-- The samples of 95 P3 with garbage on the unused lanes and a NOP in the middle. -/
def helloSamples : List PortSample :=
  [presented 0x35 0xAAAAAAAAAAAAAAAAAAAAAA6F6C6C6568, presented 0x00 1, presented 0x40 2]

/-- "hello" (95 P3). -/
def hello : List Byte := [0x68, 0x65, 0x6C, 0x6C, 0x6F]

theorem witness_TransactionComputesHash64 :
    (∃ s : State, s.host = helloSamples ++ [] ∧ hello.length ≤ s.maxLen.toNat ∧ s.Fresh ∧
      Absorbing hello 0 helloSamples) ∧
    (Transaction hello (presented 0x10 0 :: helloSamples)) ∧
    (Transaction [] [presented 0x10 0, presented 0x40 0]) := by
  have h : Absorbing hello 0 helloSamples :=
    .tail ⟨rfl, rfl, rfl, rfl⟩ (by decide) (.nop ⟨rfl, rfl, rfl, rfl⟩ (.final ⟨rfl, rfl, rfl, rfl⟩))
  exact ⟨⟨{ State.reset with host := helloSamples }, rfl, by decide, rfl, h⟩, .init ⟨rfl, rfl, rfl, rfl⟩ h,
    .init ⟨rfl, rfl, rfl, rfl⟩ (.final rfl ⟨rfl, rfl, rfl, rfl⟩)⟩

theorem witness_HashExpansionComputesHash64 :
    ({ erred 0 with host := presentAll (hashCommands hello) ++ [] } : State).host =
        presentAll (hashCommands hello) ++ [] ∧
      hello.length ≤ (erred 0).maxLen.toNat := ⟨rfl, by decide⟩

theorem witness_AssemblerPlacesBytesOnLanes :
    (lanes ascBlock 0 16).length ≤ 16 ∧ 15 < 16 ∧ 15 ≤ 15 ∧ (lanes ascTail 0 15).length = 15 ∧
      0 ≤ 15 ∧ ([] : List Byte).length = 0 ∧
      assembleLine (.tail 15 (lanes ascTail 0 15)) = some [.tail 15 (dinOf (lanes ascTail 0 15))] := by decide

end Sys2Proof.Tests
end

/-! SUPPORT. The proofs of the statements about the state (spec/10_state.md R15, R17, R21, R28): first the rules about
a step and about STATUS, then the four statements. -/

namespace Sys2Proof.Machine

variable {s t u : State} {p : PortSample} {rest : List PortSample} {cmd : Byte}

/-! A step on a presented command (R42, R65). -/

/-- A sample that keeps duty 6 and is accepted presents its command word. -/
theorem PortSample.Held.presents (hp : p.Held) (hr : p.rst = false) (hv : p.cmdValid = true) :
    p.Presents p.cmd :=
  ⟨hr, hv, hp hr hv, rfl⟩

theorem step_of_rst (hs : s.host = p :: rest) (hr : p.rst = true) :
    step s = .next (s.setHost rest).resetCore := by
  rw [step_cons hs, takeSample_rst hr]

theorem step_of_idle (hs : s.host = p :: rest) (hr : p.rst = false) (hv : p.cmdValid = false) :
    step s = .next (s.setHost rest) := by
  rw [step_cons hs, takeSample_idle hr hv]

theorem step_of_presents (hs : s.host = p :: rest) (hp : p.Presents cmd) :
    step s = acceptCommand cmd p.din (s.setHost rest) := by
  obtain ⟨hr, hv, hd, rfl⟩ := hp
  rw [step_cons hs, takeSample_steady hr hv hd]

theorem step_of_initWord (hs : s.host = p :: rest) (hp : p.Presents initWord) :
    step s = .next (s.setHost rest).clear := by
  simp [step_of_presents hs hp, acceptCommand, exec]

theorem step_of_blockWord (hs : s.host = p :: rest) (hp : p.Presents blockWord) :
    step s = execBlock p.din (s.setHost rest) := by
  simp [step_of_presents hs hp, acceptCommand, exec]

theorem step_of_tailWord {r : Nat} (hr : r ≤ 15) (hs : s.host = p :: rest) (hp : p.Presents (tailWord r)) :
    step s = execTail r p.din (s.setHost rest) := by
  simp [step_of_presents hs hp, acceptCommand, exec, decode_tailWord p.din hr]

/-- FINAL with ERR = 0 outside DONE finalizes (R85). -/
theorem step_of_finalWord (hs : s.host = p :: rest) (hp : p.Presents finalWord) (he : s.err = false)
    (hd : s.phase ≠ .done) : step s = .next (finalize (s.setHost rest)) := by
  have hx : step s = execFinal (s.setHost rest) := by simp [step_of_presents hs hp, acceptCommand, exec]
  exact hx.trans (execFinal_ok he hd)

/-! LEN (R15). BLOCK and TAIL end in the same four ways. -/

/-- What a command that absorbs `n` bytes leaves: `s` while ERR = 1, E_SEQ outside ABSORB, E_LEN without room for the
bytes, and its effect `u` otherwise (R75, R82, R91). -/
def AbsorbOutcome (n : Nat) (s u t : State) : Prop :=
  (s.err = true ∧ t = s) ∨
  (s.err = false ∧ s.phase ≠ .absorb ∧ t = s.raise .seq) ∨
  (s.err = false ∧ s.phase = .absorb ∧ s.maxLen.toNat < s.len.toNat + n ∧ t = s.raise .len) ∨
  (s.err = false ∧ s.phase = .absorb ∧ s.len.toNat + n ≤ s.maxLen.toNat ∧ t = u)

theorem step_blockWord_outcome (hs : s.host = p :: rest) (hp : p.Presents blockWord) (h : step s = .next t) :
    AbsorbOutcome 16 (s.setHost rest) (absorbBlock p.din (s.setHost rest)) t :=
  execBlock_next (step_of_blockWord hs hp ▸ h)

theorem step_tailWord_outcome {r : Nat} (hr : r ≤ 15) (hs : s.host = p :: rest) (hp : p.Presents (tailWord r))
    (h : step s = .next t) : AbsorbOutcome r (s.setHost rest) (absorbTail r p.din (s.setHost rest)) t :=
  execTail_next hr (step_of_tailWord hr hs hp ▸ h)

/-- Adding `n` to a LEN with room for it up to MAX_LEN does not wrap. -/
theorem toNat_len_add {x m : U64} {n : Nat} (h : x.toNat + n ≤ m.toNat) :
    (x + BitVec.ofNat 64 n).toNat = x.toNat + n := by
  have hm := m.isLt
  rw [BitVec.toNat_add, BitVec.toNat_ofNat, Nat.add_mod_mod, Nat.mod_eq_of_lt (by omega)]

/-- LEN counts the bytes exactly, when the command runs and only then. -/
theorem AbsorbOutcome.len_eq {n : Nat} (h : AbsorbOutcome n s u t) (hu : u.len = s.len + BitVec.ofNat 64 n) :
    if s.err = false ∧ s.phase = .absorb ∧ s.len.toNat + n ≤ s.maxLen.toNat
    then t.len.toNat = s.len.toNat + n else t.len = s.len := by
  rcases h with ⟨he, rfl⟩ | ⟨-, hp, rfl⟩ | ⟨-, -, hl, rfl⟩ | ⟨he, hp, hl, rfl⟩
  · simp [he]
  · simp [hp]
  · simp [Nat.not_le.mpr hl]
  · rw [if_pos ⟨he, hp, hl⟩, hu, toNat_len_add hl]

/-- E_LEN: without room for the bytes the command writes ERR and ECAUSE only (R93). -/
theorem AbsorbOutcome.eq_raise_len {n : Nat} (h : AbsorbOutcome n s u t) (he : s.err = false)
    (hp : s.phase = .absorb) (hl : s.maxLen.toNat < s.len.toNat + n) : t = s.raise .len := by
  rcases h with ⟨he', -⟩ | ⟨-, hp', -⟩ | ⟨-, -, -, rfl⟩ | ⟨-, -, hl', -⟩
  · simp [he] at he'
  · exact absurd hp hp'
  · rfl
  · omega

/-- No word but those of INIT, BLOCK and TAIL writes LEN. -/
theorem step_len_of_other_word (hs : s.host = p :: rest) (hh : p.Held) (h : step s = .next t) (hr : p.rst = false)
    (hi : p.cmd ≠ initWord) (hb : p.cmd ≠ blockWord) (ht : p.cmd.toNat < 0x30 ∨ 0x3F < p.cmd.toNat) :
    t.len = s.len := by
  rcases step_cases hs hh h with ⟨hr', -⟩ | ⟨-, -, rfl⟩ | ⟨-, -, hw⟩
  · simp [hr] at hr'
  · simp
  · rcases hw with ⟨-, rfl⟩ | ⟨hc, -⟩ | ⟨-, -, rfl⟩ | ⟨-, -, -, c, -, rfl⟩ | ⟨-, hc, -⟩ |
      ⟨-, -, r, hr15, hc, -⟩ | ⟨-, -, -, rfl⟩
    · simp
    · exact absurd hc hi
    · simp
    · simp
    · exact absurd hc hb
    · exact absurd hc.symm (tailWord_ne_of_toNat hr15 ht)
    · simp

/-! RES and VALID (R17, R18). -/

/-- A step that is no reset, no INIT and no FINAL that runs leaves RES and VALID. -/
theorem step_keeps_result (hs : s.host = p :: rest) (hh : p.Held) (h : step s = .next t)
    (hi : ¬ (p.rst = true ∨ (p.cmdValid = true ∧ p.cmd = initWord)))
    (hf : ¬ (p.cmdValid = true ∧ p.cmd = finalWord ∧ s.err = false ∧ s.phase ≠ .done)) :
    t.res = s.res ∧ t.valid = s.valid := by
  rcases step_cases hs hh h with ⟨hr, -⟩ | ⟨-, -, rfl⟩ | ⟨-, hv, hw⟩
  · exact absurd (.inl hr) hi
  · simp
  · rcases hw with ⟨-, rfl⟩ | ⟨hc, -⟩ | ⟨-, -, rfl⟩ | ⟨-, -, -, c, -, rfl⟩ | ⟨-, -, -, -, rfl⟩ |
      ⟨-, -, r, -, -, -, rfl⟩ | ⟨he, hc, hd, -⟩
    · simp
    · exact absurd (.inr ⟨hv, hc⟩) hi
    · simp
    · simp
    · simp
    · simp
    · exact absurd ⟨hv, hc, he, hd⟩ hf

/-! STATUS (R21). -/

theorem flagBit_getLsbD_zero (b : Bool) : (flagBit b).getLsbD 0 = b := by cases b <;> rfl

/-- STATUS position by position, the fields from bit 0 up. -/
theorem status_getLsbD (s : State) (i : Nat) :
    s.status.getLsbD i =
      if i < 1 then (flagBit s.valid).getLsbD i
      else if i - 1 < 1 then (flagBit s.err).getLsbD (i - 1)
      else if i - 2 < 2 then (phaseCode s.phase).getLsbD (i - 2)
      else if i - 4 < 3 then (causeCode s.ecause).getLsbD (i - 4)
      else (0 : BitVec 1).getLsbD (i - 7) := by
  simp only [State.status]
  iterate 4 rw [BitVec.getLsbD_append]
  rfl

theorem status_bit_zero (s : State) : s.status.getLsbD 0 = s.valid := by
  rw [status_getLsbD, if_pos (by decide), flagBit_getLsbD_zero]

theorem status_bit_one (s : State) : s.status.getLsbD 1 = s.err := by
  rw [status_getLsbD, if_neg (by decide), if_pos (by decide), flagBit_getLsbD_zero]

theorem status_bit_seven (s : State) : s.status.getLsbD 7 = false := by
  rw [status_getLsbD]; simp

theorem status_phase (s : State) : s.status.extractLsb' 2 2 = phaseCode s.phase := by
  apply BitVec.eq_of_getLsbD_eq
  intro i hi
  rw [BitVec.getLsbD_extractLsb', status_getLsbD, if_neg (by omega), if_neg (by omega), if_pos (by omega)]
  simp [hi]

theorem status_cause (s : State) : s.status.extractLsb' 4 3 = causeCode s.ecause := by
  apply BitVec.eq_of_getLsbD_eq
  intro i hi
  rw [BitVec.getLsbD_extractLsb', status_getLsbD, if_neg (by omega), if_neg (by omega), if_neg (by omega),
    if_pos (by omega)]
  simp [hi]

theorem phaseCode_ne_three (ph : Phase) : phaseCode ph ≠ 3 := by cases ph <;> decide

theorem causeCode_le_four (c : Cause) : (causeCode c).toNat ≤ 4 := by cases c <;> decide

theorem reset_status : State.reset.status = 0x00 := by decide

/-! Reset and INIT (R28, R69, R105, R106). -/

/-- INIT writes the values reset gives (R106). -/
theorem clear_eq_resetCore (s : State) : s.clear = s.resetCore := rfl

theorem resetCore_status (s : State) : s.resetCore.status = 0x00 := reset_status

theorem fresh_of_reset_values (h1 : s.h1 = State.reset.h1) (h2 : s.h2 = State.reset.h2)
    (hlen : s.len = State.reset.len) (hphase : s.phase = State.reset.phase) (hres : s.res = State.reset.res)
    (hvalid : s.valid = State.reset.valid) (herr : s.err = State.reset.err)
    (hcause : s.ecause = State.reset.ecause) : s.Fresh :=
  State.ext h1 h2 hlen hphase hres hvalid herr hcause rfl rfl rfl

/-! The statements. -/

/-- Settles O17: BLOCK and TAIL by the four ways they end, every other word by the cases of a step. -/
theorem lenCountsAbsorbedBytes : Obligations.LenCountsAbsorbedBytes := by
  intro s t p rest hs hh h
  refine ⟨fun hr => ?reset, fun hr hv => ?idle, fun hr hv => ?command⟩
  case reset =>
    obtain rfl := Host.Outcome.next.inj (step_of_rst hs hr ▸ h)
    simp
  case idle =>
    obtain rfl := Host.Outcome.next.inj (step_of_idle hs hr hv ▸ h)
    simp
  case command =>
    have hw {cmd} (hc : p.cmd = cmd) : p.Presents cmd := hc ▸ hh.presents hr hv
    have hblock (hc : p.cmd = 0x20) := step_blockWord_outcome hs (hw hc) h
    have htail {r} (hr15 : r ≤ 15) (hc : p.cmd = 0x30 ||| BitVec.ofNat 8 r) :=
      step_tailWord_outcome hr15 hs (hw (hc.trans (or_eq_tailWord hr15))) h
    refine ⟨fun hc => ?init, fun hc => (hblock hc).len_eq (absorbBlock_len _ _),
      fun r hr15 hc => (htail hr15 hc).len_eq (absorbTail_len _ _ _),
      step_len_of_other_word hs hh h hr, fun hc => (hblock hc).eq_raise_len,
      fun r hr15 hc => (htail hr15 hc).eq_raise_len, fun hc he hd => ?final⟩
    case init =>
      obtain rfl := Host.Outcome.next.inj (step_of_initWord hs (hw hc) ▸ h)
      simp
    case final =>
      obtain rfl := Host.Outcome.next.inj (step_of_finalWord hs (hw hc) he hd ▸ h)
      simp

/-- Settles O18: reset, INIT and a FINAL that runs each have their next state; no other step writes the result. -/
theorem onlyFinalInitAndResetWriteTheResult : Obligations.OnlyFinalInitAndResetWriteTheResult := by
  intro s t p rest hs hh h
  refine ⟨rfl, ?_⟩
  split
  case isTrue hclear =>
    cases hr : p.rst with
    | true =>
      obtain rfl := Host.Outcome.next.inj (step_of_rst hs hr ▸ h)
      simp
    | false =>
      obtain ⟨hv, hc⟩ : p.cmdValid = true ∧ p.cmd = initWord := hclear.resolve_left (by simp [hr])
      obtain rfl := Host.Outcome.next.inj (step_of_initWord hs ⟨hr, hv, hh hr hv, hc⟩ ▸ h)
      simp
  case isFalse hclear =>
    split
    case isTrue hfinal =>
      obtain ⟨hv, hc, he, hd⟩ := hfinal
      have hr : p.rst = false := by simpa using fun hr => hclear (.inl hr)
      have hw : p.Presents finalWord := ⟨hr, hv, hh hr hv, hc⟩
      obtain rfl := Host.Outcome.next.inj (step_of_finalWord hs hw he hd ▸ h)
      simp
    case isFalse hfinal => exact step_keeps_result hs hh h hclear hfinal

/-- Settles O27: a reset step and INIT both answer `resetCore`, and the reset values are `resetCore`'s. -/
theorem resetAndInitGiveTheResetValues : Obligations.ResetAndInitGiveTheResetValues := by
  refine ⟨fun s p rest hs hr => step_of_rst hs hr, ?_, rfl, rfl, rfl, rfl, rfl, rfl, rfl, rfl⟩
  intro s h1 h2 hlen hphase hres hvalid herr hcause
  have hfresh : s = s.resetCore := fresh_of_reset_values h1 h2 hlen hphase hres hvalid herr hcause
  rw [hfresh]
  exact ⟨resetCore_status s, fun u => by rw [exec, execInit_eq, clear_eq_resetCore]; rfl⟩

/-- Settles O28: each field by its position in the word, the typical values by their fields. -/
theorem statusFieldsShowTheFlags : Obligations.StatusFieldsShowTheFlags := by
  refine ⟨fun s => ?fields, fun s hv he hc hp => ?_, fun s hv he hc hp => ?_, fun s hv he hc hp => ?_, reset_status⟩
  case fields =>
    rw [status_phase, status_cause]
    exact ⟨status_bit_zero s, status_bit_one s, rfl, phaseCode_ne_three _, rfl, causeCode_le_four _,
      status_bit_seven s⟩
  all_goals rw [State.status, hv, he, hc, hp]; decide

end Sys2Proof.Machine

/-! SUPPORT. The proof of the statement about the opcode map (spec/30_encoding.md R43, R45, R47): the fields of a word
by its number, the rows against the commands' words, then the statement. -/

namespace Sys2Proof

variable {cmd : Byte} {din : Data}

/-! The command words by their numbers (R43, R45). -/

theorem toNat_opField (cmd : Byte) : (opField cmd).toNat = cmd.toNat / 16 := by
  have := cmd.isLt
  rw [opField, BitVec.extractLsb'_toNat, Nat.shiftRight_eq_div_pow]
  omega

theorem toNat_rField (cmd : Byte) : (rField cmd).toNat = cmd.toNat % 16 := by
  rw [rField, BitVec.extractLsb'_toNat, Nat.shiftRight_zero]

theorem eq_tailWord_of_toNat (hl : 0x30 ≤ cmd.toNat) (hu : cmd.toNat ≤ 0x3F) :
    cmd = tailWord (cmd.toNat - 0x30) := by
  apply BitVec.eq_of_toNat_eq
  rw [toNat_tailWord (by omega)]
  omega

/-- The words of the four ranges with a reserved R field (R45). -/
def InReservedRange (cmd : Byte) : Prop :=
  (0x01 ≤ cmd.toNat ∧ cmd.toNat ≤ 0x0F) ∨ (0x11 ≤ cmd.toNat ∧ cmd.toNat ≤ 0x1F) ∨
    (0x21 ≤ cmd.toNat ∧ cmd.toNat ≤ 0x2F) ∨ (0x41 ≤ cmd.toNat ∧ cmd.toNat ≤ 0x4F)

theorem fields_of_inReservedRange (h : InReservedRange cmd) :
    (opField cmd = 0x0 ∨ opField cmd = 0x1 ∨ opField cmd = 0x2 ∨ opField cmd = 0x4) ∧ rField cmd ≠ 0 := by
  simp only [InReservedRange] at h
  simp only [ne_eq, ← BitVec.toNat_inj, toNat_opField, toNat_rField, BitVec.ofNat_eq_ofNat,
    BitVec.toNat_ofNat]
  omega

/-- In a reserved range OP names a command with R = 0 only, so the decoder answers E_FIELD. -/
theorem decode_of_inReservedRange (din : Data) (h : InReservedRange cmd) : decode cmd din = .illegal .field := by
  obtain ⟨ho, hr⟩ := fields_of_inReservedRange h
  rcases ho with ho | ho | ho | ho <;> simpa [decode, ho] using hr

/-- From 0x50 up OP is at least 5, and the decoder answers E_OPCODE. -/
theorem decode_of_le_toNat (din : Data) (h : 0x50 ≤ cmd.toNat) : decode cmd din = .illegal .opcode := by
  have hne {k : BitVec 4} (hk : k.toNat < 5) : opField cmd ≠ k := by
    rintro rfl
    rw [toNat_opField] at hk
    omega
  rw [decode]
  iterate 5 rw [if_neg (hne (by decide))]

/-! The rows of the opcode map (R45). -/

/-- A row selects a command's word exactly when it is the row of the command's mnemonic and format. -/
theorem selects_encodeWord_iff {row : OpcodeRow} (hrow : row ∈ opcodeTable) (i : Instr) :
    row.selects (encodeWord i) = true ↔ i.mnemonic = row.mnemonic ∧ i.format = row.format := by
  cases i with
  | nop | init | final => revert row; decide
  | block din =>
    change row.selects blockWord = true ↔ "BLOCK" = row.mnemonic ∧ Format.b = row.format
    revert row; decide
  | tail r din =>
    change row.selects (0x3#4 ++ BitVec.ofNat 4 r) = true ↔ "TAIL" = row.mnemonic ∧ Format.t = row.format
    generalize BitVec.ofNat 4 r = x
    revert x row; decide

/-- A word that some row selects has OP = 0 to 4, and R = 0 unless it is TAIL's. -/
theorem fields_of_selects {row : OpcodeRow} (hrow : row ∈ opcodeTable) (h : row.selects cmd = true) :
    (opField cmd).toNat < 5 ∧ (opField cmd = 0x3 ∨ rField cmd = 0) := by
  revert cmd row; decide

/-- A word that some row selects decodes to a command. -/
theorem decode_of_selects (din : Data) {row : OpcodeRow} (hrow : row ∈ opcodeTable) (h : row.selects cmd = true) :
    ∃ i, decode cmd din = .command i := by
  obtain ⟨ho, hr⟩ := fields_of_selects hrow h
  rcases decode_cases cmd din with ⟨-, hd⟩ | ⟨-, hd⟩ | ⟨-, hd⟩ | ⟨r, -, -, hd⟩ | ⟨-, hd⟩ | ⟨hf, hr', -⟩ | ⟨ho', -⟩
  iterate 5 exact ⟨_, hd⟩
  · have h3 : opField cmd = 0x3 := hr.resolve_right hr'
    simp [h3] at hf
  · omega

/-- A word that decodes to a command is that command's word. -/
theorem encodeWord_of_decode {i : Instr} (h : decode cmd din = .command i) : encodeWord i = cmd := by
  rcases decode_cases cmd din with ⟨hc, hd⟩ | ⟨hc, hd⟩ | ⟨hc, hd⟩ | ⟨r, -, hc, hd⟩ | ⟨hc, hd⟩ | ⟨-, -, hd⟩ | ⟨-, hd⟩
  all_goals rw [hd] at h; cases h
  all_goals exact hc.symm

theorem selects_iff_decode (cmd : Byte) (din : Data) {row : OpcodeRow} (hrow : row ∈ opcodeTable) :
    row.selects cmd = true ↔
      ∃ i, decode cmd din = .command i ∧ i.mnemonic = row.mnemonic ∧ i.format = row.format := by
  constructor
  · intro h
    obtain ⟨i, hi⟩ := decode_of_selects din hrow h
    obtain rfl := encodeWord_of_decode hi
    exact ⟨i, hi, (selects_encodeWord_iff hrow i).mp h⟩
  · rintro ⟨i, hi, hm⟩
    obtain rfl := encodeWord_of_decode hi
    exact (selects_encodeWord_iff hrow i).mpr hm

end Sys2Proof

namespace Sys2Proof.Machine

/-- With ERR = 0 the check raises the error a word's decoding names (R91). -/
theorem check_error_of_illegal {s : State} {cmd : Byte} {din : Data} {c : Cause} (h : decode cmd din = .illegal c)
    (he : s.err = false) : check s cmd = .error c := by
  simp [check_of_illegal s h, he]

/-- Settles O3: each word by its range, the rows by the command the word decodes to. -/
theorem everyCommandWordIsOneRowOrRaises : Obligations.EveryCommandWordIsOneRowOrRaises := by
  intro cmd din
  have hword {w : Byte} (h : cmd.toNat = w.toNat) : cmd = w := BitVec.eq_of_toNat_eq h
  refine ⟨fun h => ?nop, fun h => ?init, fun h => ?block, fun hl hu => ?tail, fun h => ?final,
    fun h => ?field, fun h => ?opcode, fun row hrow => selects_iff_decode cmd din hrow⟩
  case nop => rw [hword (w := nopWord) h, decode_nopWord]
  case init => rw [hword (w := initWord) h, decode_initWord]
  case block => rw [hword (w := blockWord) h, decode_blockWord]
  case final => rw [hword (w := finalWord) h, decode_finalWord]
  case tail =>
    have hd := decode_tailWord din (r := cmd.toNat - 0x30) (by omega)
    rwa [← eq_tailWord_of_toNat hl hu] at hd
  case field =>
    have hd := decode_of_inReservedRange din h
    exact ⟨hd, fun s => check_error_of_illegal hd⟩
  case opcode =>
    have hd := decode_of_le_toNat din h
    exact ⟨hd, fun s => check_error_of_illegal hd⟩

end Sys2Proof.Machine

/-! SUPPORT. The proofs of the statements about control (spec/41_control.md R65, R67, R68, R69): what NOP and INIT
answer, what a word that is no command does, the error gate, and error entry in the wrong phase; then the three
statements. -/

namespace Sys2Proof.Machine

variable {s : State} {cmd : Byte} {din : Data}

/-! NOP and INIT (R68, R69). -/

theorem exec_nop (s : State) : exec .nop s = .next s := execNop_eq

theorem exec_init (s : State) : exec .init s = .next s.clear := execInit_eq

theorem clear_clear (s : State) : s.clear.clear = s.clear := rfl

theorem clear_status (s : State) : s.clear.status = 0x00 := resetCore_status s

/-! A word that is no command, and the error gate (R47, R94). -/

theorem acceptCommand_of_illegal {c : Cause} (h : decode cmd din = .illegal c) :
    acceptCommand cmd din s = if s.err = true then .next s else .next (s.raise c) := by
  simp only [acceptCommand, h, accept_illegal h]

theorem acceptCommand_of_inReservedRange (din : Data) (h : InReservedRange cmd) :
    acceptCommand cmd din s = if s.err = true then .next s else .next (s.raise .field) :=
  acceptCommand_of_illegal (decode_of_inReservedRange din h)

/-- While ERR = 1 every command but INIT is discarded. -/
theorem exec_of_err {i : Instr} (he : s.err = true) (hi : i ≠ .init) : exec i s = .next s := by
  cases i with
  | nop => exact exec_nop s
  | init => exact absurd rfl hi
  | block din => exact accept_discard (check_of_err he (by decide))
  | tail r din => exact accept_discard (check_of_err he (tailWord_ne_initWord r))
  | final => exact accept_discard (check_of_err he (by decide))

/-- While ERR = 1 every word but INIT's is discarded, be it a command's or not. -/
theorem acceptCommand_of_err (din : Data) (he : s.err = true) (hc : cmd ≠ initWord) :
    acceptCommand cmd din s = .next s := by
  cases hd : decode cmd din with
  | command i =>
    have hi : i ≠ .init := by
      rintro rfl
      exact hc (encodeWord_of_decode hd).symm
    simp only [acceptCommand, hd, exec_of_err he hi]
  | illegal c => rw [acceptCommand_of_illegal hd, if_pos he]

/-! A command in a phase in which it is not legal raises E_SEQ (R67). -/

theorem execBlock_seq (din : Data) (he : s.err = false) (hp : s.phase ≠ .absorb) :
    execBlock din s = .next (s.raise .seq) :=
  accept_error (by simp [he, hp])

theorem execTail_seq {r : Nat} (hr : r ≤ 15) (din : Data) (he : s.err = false) (hp : s.phase ≠ .absorb) :
    execTail r din s = .next (s.raise .seq) :=
  accept_error (by simp [check_tailWord s hr, he, hp])

theorem execFinal_seq (he : s.err = false) (hp : s.phase = .done) : execFinal s = .next (s.raise .seq) :=
  accept_error (by simp [he, hp])

/-! The statements. -/

/-- Settles O16: each cell of the table by what the command answers there, its effect or E_SEQ. -/
theorem phaseTableIsKept : Obligations.PhaseTableIsKept := by
  intro s he
  refine ⟨⟨s, exec_nop s, rfl⟩, ⟨s.clear, exec_init s, State.clear_phase s⟩, fun din hp hl => ?block,
    fun din => execBlock_seq din he, fun r din hr hp hl => ?tail, fun r din hr => execTail_seq hr din he,
    fun hp => ?final, execFinal_seq he⟩
  case block => exact ⟨absorbBlock din s, execBlock_ok din he hp hl, by simp [hp], by simp [he]⟩
  case tail => exact ⟨absorbTail r din s, execTail_ok hr din he hp hl, by simp, by simp [he]⟩
  case final => exact ⟨finalize s, execFinal_ok he hp, by simp, by simp [he]⟩

/-- Settles O10: NOP answers its own state, and 0x01 to 0x0F lie in a reserved range. -/
theorem nopChangesNothing : Obligations.NopChangesNothing := by
  intro s
  refine ⟨exec_nop s, decode_nopWord, fun cmd din hl hu he => ?_⟩
  rw [acceptCommand_of_inReservedRange din (.inl ⟨hl, hu⟩), if_neg (by simp [he])]
  rfl

/-- Settles O11: INIT answers `clear`, the error gate discards all else, and 0x11 to 0x1F lie in a reserved range. -/
theorem initClearsEveryStateElement : Obligations.InitClearsEveryStateElement := by
  intro s
  have hagain : exec .init s.clear = .next s.clear := by rw [exec_init, clear_clear]
  exact ⟨⟨s.clear, exec_init s, rfl, clear_status s, hagain⟩,
    fun he => ⟨fun i _ hi => exec_of_err he hi, fun cmd din hc => acceptCommand_of_err din he hc⟩,
    decode_initWord, fun cmd din hl hu => acceptCommand_of_inReservedRange din (.inr (.inl ⟨hl, hu⟩))⟩

end Sys2Proof.Machine

/-! SUPPORT. The proof of the statement about the unused lanes (spec/20_memory.md R32, spec/43_tail_mixer.md R81): what
a word's decoding and TAIL read of the data word, then the statement. -/

namespace Sys2Proof

/-- No word outside BLOCK's and TAIL's ranges hands its data word on: the decoder uses none of its lanes (R32). -/
theorem decode_eq_of_uses_no_lane {cmd : Byte} (din din' : Data) (h : cmd.toNat < 0x20 ∨ 0x40 ≤ cmd.toNat) :
    decode cmd din = decode cmd din' := by
  have hne {k : BitVec 4} (hk : k.toNat = 2 ∨ k.toNat = 3) : opField cmd ≠ k := by
    rintro rfl
    rw [toNat_opField] at hk
    omega
  simp only [decode, if_neg (hne (k := 0x2) (.inl rfl)), if_neg (hne (k := 0x3) (.inr rfl))]

end Sys2Proof

namespace Sys2Proof.Machine

variable {r : Nat} {din din' : Data}

/-- The effect of TAIL `r` reads lanes 0 to r - 1 only (R81). -/
theorem absorbTail_congr (h : ∀ j, j < r → dinByte din j = dinByte din' j) :
    absorbTail r din = absorbTail r din' := by
  funext s
  rw [absorbTail, absorbTail, tmix_congr h]

theorem execTail_congr (h : ∀ j, j < r → dinByte din j = dinByte din' j) (s : State) :
    execTail r din s = execTail r din' s := by
  rw [execTail, execTail, absorbTail_congr h]

theorem acceptCommand_tailWord (hr : r ≤ 15) (din : Data) (s : State) :
    acceptCommand (tailWord r) din s = execTail r din s := by
  simp only [acceptCommand, decode_tailWord din hr, exec]

/-- A step on a command the host presents accepts it, with the rest of the samples still to come. -/
theorem step_presented (s : State) (cmd : Byte) (din : Data) (rest : List PortSample) :
    step { s with host := presented cmd din :: rest } = acceptCommand cmd din (s.setHost rest) :=
  step_of_presents (p := presented cmd din) rfl ⟨rfl, rfl, rfl, rfl⟩

/-- Settles O30: below 0x20 and from 0x40 up decoding ignores the data word, in BLOCK's range the data words are equal,
and TAIL reads the lanes that agree. -/
theorem unusedLanesHaveNoEffect : Obligations.UnusedLanesHaveNoEffect := by
  intro s cmd din din' rest hblock htail
  rw [step_presented, step_presented]
  by_cases hnone : cmd.toNat < 0x20 ∨ 0x40 ≤ cmd.toNat
  case pos => rw [acceptCommand, acceptCommand, decode_eq_of_uses_no_lane din din' hnone]
  case neg =>
    rcases Nat.lt_or_ge cmd.toNat 0x30 with hlt | hge
    · rw [hblock (by omega) hlt]
    · rw [eq_tailWord_of_toNat hge (by omega), acceptCommand_tailWord (by omega), acceptCommand_tailWord (by omega),
        execTail_congr (htail hge (by omega))]

end Sys2Proof.Machine

/-! SUPPORT. The proofs of the statements about command errors (spec/60_exceptions.md R90, R91, R93 to R95, R104): the
check by the word's number, an accepted word by the check's answer, a step with ERR = 1; then the five statements. -/

namespace Sys2Proof.Machine

variable {s : State} {p : PortSample} {rest : List PortSample} {cmd : Byte} {din : Data}

/-! The check by the word's number (R43, R91). -/

theorem opField_eq_iff (cmd : Byte) (k : BitVec 4) : opField cmd = k ↔ cmd.toNat / 16 = k.toNat := by
  rw [← BitVec.toNat_inj, toNat_opField]

theorem rField_eq_iff (cmd : Byte) (k : BitVec 4) : rField cmd = k ↔ cmd.toNat % 16 = k.toNat := by
  rw [← BitVec.toNat_inj, toNat_rField]

/-- With ERR = 0 the check is R91's chain, with OP and R as the quotient and remainder of the word by 16; BLOCK and TAIL
share their test of PHASE. -/
theorem check_eq_of_no_err (he : s.err = false) (cmd : Byte) : check s cmd =
    if 5 ≤ cmd.toNat / 16 then .error .opcode
    else if (cmd.toNat / 16 = 0 ∨ cmd.toNat / 16 = 1 ∨ cmd.toNat / 16 = 2 ∨ cmd.toNat / 16 = 4) ∧
        cmd.toNat % 16 ≠ 0 then .error .field
    else if (cmd.toNat / 16 = 2 ∨ cmd.toNat / 16 = 3) ∧ s.phase ≠ .absorb then .error .seq
    else if cmd.toNat / 16 = 4 ∧ s.phase = .done then .error .seq
    else if cmd.toNat / 16 = 2 ∧ s.maxLen.toNat < s.len.toNat + 16 then .error .len
    else if cmd.toNat / 16 = 3 ∧ s.maxLen.toNat < s.len.toNat + cmd.toNat % 16 then .error .len
    else .ok := by
  have hseq (a b : Prop) [Decidable a] [Decidable b] (x : Verdict) :
      (if a ∧ s.phase ≠ .absorb then .error .seq else if b ∧ s.phase ≠ .absorb then .error .seq else x) =
        if (a ∨ b) ∧ s.phase ≠ .absorb then .error .seq else x := by
    by_cases ha : a <;> by_cases hp : s.phase = .absorb <;> simp [ha, hp]
  rw [check, if_neg (by simp [he]), hseq]
  simp only [ne_eq, opField_eq_iff, rField_eq_iff, toNat_opField, toNat_rField, BitVec.ofNat_eq_ofNat,
    BitVec.toNat_ofNat, Nat.reducePow, Nat.reduceMod]

/-! An accepted word by the check's answer (R65). -/

/-- What each command does once the check passes. -/
def commandEffect : Instr → State → State
  | .nop => fun s => s
  | .init => State.clear
  | .block din => absorbBlock din
  | .tail r din => absorbTail r din
  | .final => finalize

/-- Every command is the shared step on its word with its effect. -/
theorem exec_eq_accept (i : Instr) (s : State) : exec i s = accept (encodeWord i) (commandEffect i) s := by
  cases i <;> rfl

/-- No effect raises an error (R90). -/
theorem commandEffect_err (i : Instr) (he : s.err = false) : (commandEffect i s).err = false := by
  cases i <;> simp [commandEffect, he]

/-- INIT alone writes ECAUSE. -/
theorem commandEffect_ecause {i : Instr} (hi : i ≠ .init) : (commandEffect i s).ecause = s.ecause := by
  cases i with
  | init => exact absurd rfl hi
  | nop | block | tail | final => simp [commandEffect]

/-- Error entry, be the word a command's or not (R93). -/
theorem acceptCommand_of_error {c : Cause} (din : Data) (h : check s cmd = .error c) :
    acceptCommand cmd din s = .next (s.raise c) := by
  cases hd : decode cmd din with
  | command i =>
    obtain rfl := encodeWord_of_decode hd
    simp only [acceptCommand, hd, exec_eq_accept, accept_error h]
  | illegal c' => simp only [acceptCommand, hd, accept_error h]

/-- A word that passes the check with ERR = 0 is a command's, and the step is its effect. -/
theorem acceptCommand_of_ok (din : Data) (he : s.err = false) (h : check s cmd = .ok) :
    ∃ i, decode cmd din = .command i ∧ acceptCommand cmd din s = exec i s ∧
      exec i s = .next (commandEffect i s) := by
  cases hd : decode cmd din with
  | command i =>
    obtain rfl := encodeWord_of_decode hd
    exact ⟨i, rfl, by simp only [acceptCommand, hd], by rw [exec_eq_accept, accept_ok h]⟩
  | illegal c => simp [check_error_of_illegal hd he] at h

/-- With ERR = 0 no word is discarded. -/
theorem check_ne_discard (he : s.err = false) : check s cmd ≠ .discard := by
  rw [check_eq_of_no_err he]
  split_ifs <;> simp

/-! A step with ERR = 1 (R94, R95). -/

theorem presented_presents (cmd : Byte) (din : Data) : (presented cmd din).Presents cmd := ⟨rfl, rfl, rfl, rfl⟩

theorem step_of_presented (hs : s.host = presented cmd din :: rest) :
    step s = acceptCommand cmd din (s.setHost rest) :=
  step_of_presents hs (presented_presents cmd din)

/-- While ERR = 1 a step gives the reset values on reset and on INIT's word, and holds the state otherwise. -/
theorem step_of_err (hs : s.host = p :: rest) (hp : p.Held) (he : s.err = true) :
    step s = if p.rst = true ∨ (p.cmdValid = true ∧ p.cmd = initWord) then .next (s.setHost rest).clear
      else .next (s.setHost rest) := by
  cases hr : p.rst with
  | true => simp [step_of_rst hs hr, clear_eq_resetCore]
  | false =>
    cases hv : p.cmdValid with
    | false => simp [step_of_idle hs hr hv]
    | true =>
      rw [step_of_presents hs (hp.presents hr hv)]
      by_cases hc : p.cmd = initWord
      · simp [hc, acceptCommand, exec]
      · simp [hc, acceptCommand_of_err p.din (s := s.setHost rest) he hc]

theorem step_presented_of_err (hs : s.host = presented cmd din :: rest) (he : s.err = true) :
    step s = if cmd = initWord then .next (s.setHost rest).clear else .next (s.setHost rest) := by
  rw [step_of_err hs (fun _ _ => rfl) he]
  simp [presented]

/-! The statements. -/

/-- Settles O20: the statement's chain is the check's, each error is error entry, and a word that passes is a
command's. -/
theorem commandErrorsInCheckOrder : Obligations.CommandErrorsInCheckOrder := by
  refine ⟨by decide, fun s cmd din rest hs => ?_⟩
  intro raised r op
  by_cases herr : s.err = true
  case pos =>
    rw [if_pos herr, exec_init]
    exact step_presented_of_err hs herr
  case neg =>
    have he : s.err = false := by simpa using herr
    have hraise {c : Cause} (h : check s cmd = .error c) : step s = raised c :=
      (step_of_presented hs).trans (acceptCommand_of_error (s := s.setHost rest) din h)
    have hrun (h : check s cmd = .ok) : ∃ t i, decode cmd din = .command i ∧
        step s = exec i (s.setHost rest) ∧ step s = .next t ∧ t.err = false ∧ (op ≠ 1 → t.ecause = s.ecause) := by
      obtain ⟨i, hd, hx, ht⟩ := acceptCommand_of_ok (s := s.setHost rest) din he h
      have hstep := (step_of_presented hs).trans hx
      refine ⟨_, i, hd, hstep, hstep.trans ht, commandEffect_err i he, fun hop => commandEffect_ecause ?_⟩
      rintro rfl
      exact hop (by simp only [op, ← encodeWord_of_decode hd]; rfl)
    rw [check_eq_of_no_err he] at hraise hrun
    rw [if_neg herr]
    split_ifs at hraise hrun ⊢
    iterate 6 exact hraise rfl
    exact hrun rfl

/-- Settles O21: by the check's answer on an accepted word; reset and an idle sample raise nothing. -/
theorem errorEntryIsPrecise : Obligations.ErrorEntryIsPrecise := by
  intro s t p rest hs hp h he
  have hentry (c : Cause) (hr : p.rst = false) (hv : p.cmdValid = true) (hc : check s p.cmd = .error c) :
      t = (s.setHost rest).raise c :=
    Host.Outcome.next.inj <| h.symm.trans <| (step_of_presents hs (hp.presents hr hv)).trans <|
      acceptCommand_of_error (s := s.setHost rest) p.din hc
  refine ⟨⟨fun ht => ?raised, fun ⟨hr, hv, c, hc⟩ => by rw [hentry c hr hv hc, State.raise_err]⟩,
    fun c hr hv hc => ⟨hentry c hr hv hc, (check_error s hc).2⟩⟩
  cases hr : p.rst with
  | true =>
    obtain rfl := Host.Outcome.next.inj (step_of_rst hs hr ▸ h)
    simp at ht
  | false =>
    cases hv : p.cmdValid with
    | false =>
      obtain rfl := Host.Outcome.next.inj (step_of_idle hs hr hv ▸ h)
      simp [he] at ht
    | true =>
      refine ⟨rfl, rfl, ?_⟩
      cases hc : check s p.cmd with
      | error c => exact ⟨c, rfl⟩
      | discard => exact absurd hc (check_ne_discard he)
      | ok =>
        obtain ⟨i, -, hx, hi⟩ := acceptCommand_of_ok (s := s.setHost rest) p.din he hc
        have hstep := (step_of_presents hs (hp.presents hr hv)).trans (hx.trans hi)
        obtain rfl := Host.Outcome.next.inj (hstep ▸ h)
        simp [commandEffect_err i (s := s.setHost rest) he] at ht

/-- Settles O22: the two cases of a presented word while ERR = 1. -/
theorem errorGateDiscardsAllButInit : Obligations.ErrorGateDiscardsAllButInit := by
  intro s cmd din rest hs he
  have hstep := step_presented_of_err hs he
  exact ⟨fun hc => hstep.trans (if_neg hc), fun hc => ⟨_, hstep.trans (if_pos hc), rfl, rfl, rfl, rfl⟩⟩

/-- Settles O23: reset and INIT give `clear`, and every other step from ERR = 1 keeps ERR. -/
theorem onlyInitAndResetLeaveTheError : Obligations.OnlyInitAndResetLeaveTheError := by
  intro s t p rest hs hp h he
  rw [step_of_err hs hp he] at h
  split at h
  case isTrue hout =>
    obtain rfl := Host.Outcome.next.inj h
    exact ⟨iff_of_true rfl hout, fun _ => rfl⟩
  case isFalse hin =>
    obtain rfl := Host.Outcome.next.inj h
    exact ⟨iff_of_false (by simp [he]) hin, fun ht => absurd ht (by simp [he])⟩

/-- Settles O26: a step on an idle sample only takes the sample. -/
theorem nothingPresentedHoldsTheState : Obligations.NothingPresentedHoldsTheState :=
  fun _ _ _ hs hr hv => step_of_idle hs hr hv

end Sys2Proof.Machine

/-! SUPPORT. The proofs of the statements about the encoding (spec/30_encoding.md R43 to R48): decoding a command's own
words, the words of a decoded command, and the words written out. -/

namespace Sys2Proof

/-- Settles O1: one decoder law per command; TAIL's needs its count to be at most 15. -/
theorem decodeOfEncodeIsTheCommand : Obligations.DecodeOfEncodeIsTheCommand := by
  intro i hi
  cases i with
  | nop => exact decode_nopWord _
  | init => exact decode_initWord _
  | block din => exact decode_blockWord din
  | tail r din => exact decode_tailWord din (of_decide_eq_true hi)
  | final => exact decode_finalWord _

/-- A decoded command is well-formed, and one whose format uses lanes carries the data word it was decoded with. -/
theorem operands_of_decode {cmd : Byte} {din : Data} {i : Instr} (h : decode cmd din = .command i) :
    i.wellFormed = true ∧ (i.format ≠ .z → encodeData i = din) := by
  rcases decode_cases cmd din with ⟨-, hd⟩ | ⟨-, hd⟩ | ⟨-, hd⟩ | ⟨r, hr, -, hd⟩ | ⟨-, hd⟩ | ⟨-, -, hd⟩ | ⟨-, hd⟩
  all_goals rw [hd] at h; cases h
  · exact ⟨rfl, fun hz => absurd rfl hz⟩
  · exact ⟨rfl, fun hz => absurd rfl hz⟩
  · exact ⟨rfl, fun _ => rfl⟩
  · exact ⟨decide_eq_true hr, fun _ => rfl⟩
  · exact ⟨rfl, fun hz => absurd rfl hz⟩

/-- Settles O2: the command word by `encodeWord_of_decode`, the operands by the cases of the decoder. -/
theorem encodeOfDecodeIsTheWord : Obligations.EncodeOfDecodeIsTheWord := by
  intro cmd din i h
  obtain ⟨hwf, hdata⟩ := operands_of_decode h
  exact ⟨hwf, encodeWord_of_decode h, hdata⟩

/-- Settles O4: each word is a command's word, or lies in a range of reserved words. -/
theorem writtenOutWordsDecode : Obligations.WrittenOutWordsDecode := fun din =>
  ⟨decode_nopWord din, decode_initWord din, decode_blockWord din, decode_tailWord din (r := 0) (by decide),
    decode_tailWord din (r := 11) (by decide), decode_finalWord din,
    decode_of_inReservedRange din (.inr (.inr (.inr (by decide)))), decode_of_le_toNat din (by decide)⟩

end Sys2Proof

/-! SUPPORT. The proofs of the statements about the operators and the operand assembly (spec/20_memory.md R32, R33;
spec/40_datapath.md R57, R58, R62 to R64; spec/42_block_mixer.md R72; spec/43_tail_mixer.md R77, R78): bit by bit what a
little-endian word and an assembled data word hold, and that each step of a key-word mixer can be undone. -/

namespace Sys2Proof.Machine

/-! Words built from bytes, bit by bit (R33, R50). -/

theorem zextByte_getLsbD (b : Byte) (m : Nat) : (zextByte b).getLsbD m = (decide (m < 64) && b.getLsbD m) := by
  simp [zextByte]

theorem le64From_succ (i : Nat) (bs : List Byte) : le64From (i + 1) bs = le64From i bs <<< 8 := by
  induction bs generalizing i with
  | nil => simp [le64From]
  | cons b bs ih =>
    rw [le64From, le64From, ih, xor64_eq, xor64_eq, shl64_eq, shl64_eq, BitVec.shiftLeft_xor_distrib,
      ← BitVec.shiftLeft_add, Nat.mul_succ]

theorem le64_cons (b : Byte) (bs : List Byte) : le64 (b :: bs) = zextByte b ^^^ le64 bs <<< 8 := by
  rw [le64, le64From, le64From_succ, xor64_eq, shl64_eq, Nat.mul_zero, BitVec.shiftLeft_zero, le64]

/-- Bit `m` of the list's bytes, laid end to end from byte 0 up: a byte, then the bits of the rest. -/
theorem bit_of_bytes_cons (b : Byte) (bs : List Byte) (m : Nat) :
    ((b :: bs).getD (m / 8) 0).getLsbD (m % 8) =
      if m < 8 then b.getLsbD m else (bs.getD ((m - 8) / 8) 0).getLsbD ((m - 8) % 8) := by
  split
  case isTrue h => rw [Nat.div_eq_of_lt h, Nat.mod_eq_of_lt h, List.getD_cons_zero]
  case isFalse h =>
    rw [show m / 8 = (m - 8) / 8 + 1 by omega, show m % 8 = (m - 8) % 8 by omega, List.getD_cons_succ]

/-- Bit `m` of a little-endian word is bit `m % 8` of byte `m / 8` (R33). -/
theorem le64_getLsbD (bs : List Byte) (m : Nat) :
    (le64 bs).getLsbD m = (decide (m < 64) && (bs.getD (m / 8) 0).getLsbD (m % 8)) := by
  induction bs generalizing m with
  | nil => simp [le64, le64From]
  | cons b bs ih =>
    rw [le64_cons, bit_of_bytes_cons, BitVec.getLsbD_xor, BitVec.getLsbD_shiftLeft, ih, zextByte_getLsbD]
    by_cases h : m < 8
    · simp [h]
    · have hb : b.getLsbD m = false := BitVec.getLsbD_of_ge b m (by omega)
      by_cases hm : m < 64 <;> simp [h, hm, hb]
      omega

/-- Bit `m` of an assembled data word is bit `m % 8` of byte `m / 8` (R32, R50). -/
theorem dinOf_getLsbD (bs : List Byte) (m : Nat) :
    (dinOf bs).getLsbD m = (decide (m < 128) && (bs.getD (m / 8) 0).getLsbD (m % 8)) := by
  induction bs generalizing m with
  | nil => simp [dinOf]
  | cons b bs ih =>
    rw [dinOf, bit_of_bytes_cons, BitVec.getLsbD_or, BitVec.getLsbD_shiftLeft, ih, BitVec.getLsbD_setWidth]
    by_cases h : m < 8
    · simp [h]
    · have hb : b.getLsbD m = false := BitVec.getLsbD_of_ge b m (by omega)
      by_cases hm : m < 128 <;> simp [h, hm, hb]
      omega

/-- Lane `j` of an assembled data word is byte `j`, or 0x00 where the list has none (R50). -/
theorem dinByte_dinOf (bs : List Byte) {j : Nat} (hj : j < 16) : dinByte (dinOf bs) j = bs.getD j 0 := by
  apply BitVec.eq_of_getLsbD_eq
  intro k hk
  rw [dinByte_getLsbD _ _ hk, dinOf_getLsbD, show (8 * j + k) / 8 = j by omega,
    show (8 * j + k) % 8 = k by omega, decide_eq_true (show 8 * j + k < 128 by omega), Bool.true_and]

/-- The little-endian word of `n` lanes is that slice of `din`, zero-extended (R32, R33). -/
theorem le64_lanes (din : Data) (start n : Nat) :
    le64 (lanes din start n) = (din.extractLsb' (8 * start) (8 * n)).setWidth 64 := by
  apply BitVec.eq_of_getLsbD_eq
  intro m hm
  rw [le64_getLsbD, BitVec.getLsbD_setWidth, BitVec.getLsbD_extractLsb']
  by_cases h : m / 8 < n
  · rw [lanes_getD din start h, dinByte_getLsbD _ _ (Nat.mod_lt _ (by decide)),
      show 8 * (start + m / 8) + m % 8 = 8 * start + m by omega, decide_eq_true (show m < 8 * n by omega),
      Bool.true_and]
  · rw [List.getD_eq_default _ _ (by rw [length_lanes]; omega), decide_eq_false (show ¬ m < 8 * n by omega)]
    simp

/-- The tail accumulator, lanes read as little-endian words (R77, R78). -/
theorem tailAccum_eq_le64 (din : Data) (r : Nat) :
    tailAccum (dinByte din) r = (le64 (lanes din 0 (min r 8)), le64 (lanes din 8 (r - 8))) := by
  rw [tailAccum, gather_eq_le64, gather_eq_le64, lanes, lanes]

/-! The operators bit by bit (R57, R58). -/

theorem rotl64_getLsbD (a : U64) {n i : Nat} (h0 : 0 < n) (hn : n < 64) (hi : i < 64) :
    (rotl64 a n).getLsbD i = a.getLsbD ((i + (64 - n)) % 64) := by
  rw [rotl64_eq_rotateLeft a hn, BitVec.getLsbD_rotateLeft, Nat.mod_eq_of_lt hn]
  by_cases h : i < n
  · rw [decide_eq_true h, cond_true, Nat.mod_eq_of_lt (by omega), Nat.add_comm]
  · rw [decide_eq_false h, cond_false, decide_eq_true hi, Bool.true_and]
    congr 1
    omega

theorem shr64_33_getLsbD (a : U64) (i : Nat) :
    (shr64 a 33).getLsbD i = if i + 33 ≤ 63 then a.getLsbD (i + 33) else false := by
  rw [shr64_eq, BitVec.getLsbD_ushiftRight, Nat.add_comm]
  split
  case isTrue h => rfl
  case isFalse h => exact BitVec.getLsbD_of_ge a _ (by omega)

/-! The key-word mixers (R62 to R64). -/

/-- A rotation loses no bit: bit `j` of the word is bit `(j + n) mod 64` of its rotation. -/
theorem rotl64_injective {n : Nat} (h0 : 0 < n) (hn : n < 64) : Function.Injective fun a => rotl64 a n := by
  intro a b hab
  apply BitVec.eq_of_getLsbD_eq
  intro j hj
  have hbit := congrArg (fun x : U64 => x.getLsbD ((j + n) % 64)) hab
  simp only [rotl64_getLsbD _ h0 hn (Nat.mod_lt _ (by decide))] at hbit
  rwa [show ((j + n) % 64 + (64 - n)) % 64 = j by omega] at hbit

/-- Multiplication by a word that has an inverse modulo 2^64, as every odd word has, loses nothing. -/
theorem mul64_injective {c d : U64} (h : c * d = 1#64) : Function.Injective fun k => mul64 k c := by
  intro a b hab
  simpa only [mul64_eq, BitVec.mul_assoc, h, BitVec.mul_one] using congrArg (fun k => mul64 k d) hab

theorem C1_mul_inverse : C1 * 0xA98409E882CE4D7D = 1#64 := by decide

theorem C2_mul_inverse : C2 * 0xA81E14EDD9DE2C7F = 1#64 := by decide

theorem mixK1_injective : Function.Injective mixK1 :=
  (mul64_injective C2_mul_inverse).comp <|
    (rotl64_injective (n := 31) (by decide) (by decide)).comp (mul64_injective C1_mul_inverse)

theorem mixK2_injective : Function.Injective mixK2 :=
  (mul64_injective C1_mul_inverse).comp <|
    (rotl64_injective (n := 33) (by decide) (by decide)).comp (mul64_injective C2_mul_inverse)

theorem mixK1_zero : mixK1 0 = 0 := by decide

theorem mixK2_zero : mixK2 0 = 0 := by decide

/-! The statements. -/

/-- Settles O5: the bit laws of the rotation and of the logical shift. -/
theorem rotateAndShiftMoveEachBit : Obligations.RotateAndShiftMoveEachBit :=
  fun a => ⟨fun _ _ h0 hn hi => rotl64_getLsbD a h0 hn hi, shr64_33_getLsbD a⟩

/-- Settles O6: both clauses are the bit law of `le64`, on a listed byte and above the last one. -/
theorem littleEndianWordPlacesEachByte : Obligations.LittleEndianWordPlacesEachByte := by
  intro bs hbs
  refine ⟨fun j k hj hk => ?_, fun i hi => ?_⟩
  · rw [le64_getLsbD, decide_eq_true (show 8 * j + k < 64 by omega), Bool.true_and,
      show (8 * j + k) / 8 = j by omega, show (8 * j + k) % 8 = k by omega]
  · rw [le64_getLsbD, List.getD_eq_default _ _ (by omega)]
    simp

/-- Settles O7: each word is the slice of `din` under its eight lanes. -/
theorem blockDecoderIsWirePermutation : Obligations.BlockDecoderIsWirePermutation := by
  intro din
  rw [blockWords, le64_lanes, le64_lanes, BitVec.setWidth_eq, BitVec.setWidth_eq]

/-- Settles O8: the descending loop builds the little-endian word of the same lanes. -/
theorem tailAccumulatorIsPaddedRead : Obligations.TailAccumulatorIsPaddedRead :=
  fun din r _ => tailAccum_eq_le64 din r

/-- Settles O9: the mixers are injective, so on the finite type of words they are bijective. -/
theorem keyMixersFixZeroAndAreBijections : Obligations.KeyMixersFixZeroAndAreBijections := by
  refine ⟨⟨mixK1_zero, mixK2_zero, fun h => ?_⟩, Finite.injective_iff_bijective.mp mixK1_injective,
    Finite.injective_iff_bijective.mp mixK2_injective⟩
  rw [mixK1_zero, mixK2_zero, xor64_eq, and_self]
  exact BitVec.xor_zero

end Sys2Proof.Machine

/-! SUPPORT. The proofs of the statements about what each command does (spec/40_datapath.md to spec/44_finalizer.md,
R62 to R85; spec/60_exceptions.md R91, R93): the datapath in the library's operations, the frame of a command, then
the statements. -/

namespace Sys2Proof.Machine

variable {s t : State}

/-! The datapath in the library's own 64-bit operations (R62, R63, R73, R83, R84). -/

theorem mixK1_eq (k : U64) : mixK1 k = (k * 0x87C37B91114253D5).rotateLeft 31 * 0x4CF5AD432745937F := by
  rw [mixK1, rotl64_eq_rotateLeft _ (by decide), mul64_eq, mul64_eq, C1, C2]

theorem mixK2_eq (k : U64) : mixK2 k = (k * 0x4CF5AD432745937F).rotateLeft 33 * 0x87C37B91114253D5 := by
  rw [mixK2, rotl64_eq_rotateLeft _ (by decide), mul64_eq, mul64_eq, C1, C2]

theorem broundH1_eq (h1 h2 k : U64) :
    broundH1 h1 h2 k = ((h1 ^^^ mixK1 k).rotateLeft 27 + h2) * 5 + 0x52DCE729 := by
  rw [broundH1, mul5add, rotl64_eq_rotateLeft _ (by decide), xor64_eq, add64_eq, mul64_eq, add64_eq,
    show N1.setWidth 64 = (0x52DCE729 : U64) by decide]

theorem broundH2_eq (newH1 h2 k : U64) :
    broundH2 newH1 h2 k = ((h2 ^^^ mixK2 k).rotateLeft 31 + newH1) * 5 + 0x38495AB5 := by
  rw [broundH2, mul5add, rotl64_eq_rotateLeft _ (by decide), xor64_eq, add64_eq, mul64_eq, add64_eq,
    show N2.setWidth 64 = (0x38495AB5 : U64) by decide]

theorem tmix_dinByte (h1 h2 : U64) (din : Data) (r : Nat) :
    tmix h1 h2 (dinByte din) r =
      (if 1 ≤ r then h1 ^^^ mixK1 (le64 (lanes din 0 (min r 8))) else h1,
        if 9 ≤ r then h2 ^^^ mixK2 (le64 (lanes din 8 (r - 8))) else h2) := by
  rw [tmix, tailAccum_eq_le64, xor64_eq, xor64_eq]

theorem xorShift33_eq (k : U64) : xorShift33 k = k ^^^ (k >>> 33) := by
  rw [xorShift33, xor64_eq, shr64_eq]

theorem fmix64_eq (k : U64) :
    fmix64 k = xorShift33 (xorShift33 (xorShift33 k * 0xFF51AFD7ED558CCD) * 0xC4CEB9FE1A85EC53) := by
  rw [fmix64, mul64_eq, mul64_eq, F1, F2]

theorem crossAdd_eq (a b : U64) : crossAdd (a, b) = (a + b, b + (a + b)) := by
  rw [crossAdd, add64_eq, add64_eq]

theorem fin_eq (h1 h2 len : U64) :
    fin h1 h2 len =
      crossAdd (fmix64 ((h1 ^^^ len) + (h2 ^^^ len)), fmix64 ((h2 ^^^ len) + ((h1 ^^^ len) + (h2 ^^^ len)))) := by
  rw [fin, xor64_eq, xor64_eq, crossAdd_eq (h1 ^^^ len)]

/-! The frame (R65, R93). -/

/-- What neither error entry nor the effect of the command changes, the shared step leaves. -/
theorem accept_keeps {α : Type} (f : State → α) {cmd : Byte} {effect : State → State}
    (h : accept cmd effect s = .next t) (hraise : ∀ c, f (s.raise c) = f s) (heffect : f (effect s) = f s) : f t = f s := by
  rcases accept_next h with ⟨-, rfl⟩ | ⟨c, -, rfl⟩ | ⟨-, rfl⟩
  · rfl
  · exact hraise c
  · exact heffect

theorem exec_keeps {α : Type} (f : State → α) {i : Instr} (h : exec i s = .next t)
    (hraise : ∀ c, f (s.raise c) = f s) (heffect : f (commandEffect i s) = f s) : f t = f s :=
  accept_keeps f (exec_eq_accept i s ▸ h) hraise heffect

/-- The fields of the model's own (log entries 1 to 3), which no command changes. -/
def State.surroundings (s : State) : U64 × List PortSample × Nat := (s.maxLen, s.host, s.free)

theorem commandEffect_surroundings (i : Instr) (s : State) : (commandEffect i s).surroundings = s.surroundings := by
  cases i <;> simp [commandEffect, State.surroundings]

/-- A command other than INIT leaves ERR and ECAUSE, or is error entry, which writes nothing else (R93). -/
theorem exec_error_frame {i : Instr} (hi : i ≠ .init) (h : exec i s = .next t) :
    (t.err = s.err ∧ t.ecause = s.ecause) ∨ (s.err = false ∧ t = s.raise t.ecause) := by
  rw [exec_eq_accept] at h
  rcases accept_next h with ⟨-, rfl⟩ | ⟨c, hc, rfl⟩ | ⟨hc, rfl⟩
  · exact .inl ⟨rfl, rfl⟩
  · exact .inr ⟨(check_error s hc).1, rfl⟩
  · refine .inl ⟨?_, commandEffect_ecause hi⟩
    cases i with
    | init => exact absurd rfl hi
    | nop | block | tail | final => simp [commandEffect]

/-! The statements. -/

/-- Settles O12: BLOCK answers `absorbBlock`, compared field by field; the words by the round's equations. -/
theorem blockAbsorbsSixteenBytes : Obligations.BlockAbsorbsSixteenBytes := by
  intro s din he hp hl k1 k2 h1 h2
  have hw1 : (absorbBlock din s).h1 = h1 := by
    rw [absorbBlock_h1, bround, blockDecoderIsWirePermutation, broundH1_eq, mixK1_eq]
  have hw2 : (absorbBlock din s).h2 = h2 := by
    rw [absorbBlock_h2, bround, blockDecoderIsWirePermutation, broundH2_eq, broundH1_eq, mixK1_eq, mixK2_eq]
  refine (execBlock_ok din he hp hl).trans (congrArg _ (State.ext hw1 hw2 ?_ ?_ ?_ ?_ ?_ ?_ ?_ ?_ ?_))
  all_goals simp

/-- Settles O13: TAIL answers `absorbTail`, compared field by field; each stage reads a slice of `din`. -/
theorem tailAbsorbsItsBytes : Obligations.TailAbsorbsItsBytes := by
  intro s r din hr he hp hl k1 k2 m1 m2
  have hw1 : (absorbTail r din s).h1 = if 1 ≤ r then s.h1 ^^^ m1 else s.h1 := by
    rw [absorbTail_h1, tmix_dinByte, le64_lanes, mixK1_eq]
  have hw2 : (absorbTail r din s).h2 = if 9 ≤ r then s.h2 ^^^ m2 else s.h2 := by
    rw [absorbTail_h2, tmix_dinByte, le64_lanes _ 8, mixK2_eq]
  refine (execTail_ok hr din he hp hl).trans (congrArg _ (State.ext hw1 hw2 ?_ ?_ ?_ ?_ ?_ ?_ ?_ ?_ ?_))
  all_goals simp

/-- Settles O14: FINAL answers `finalize`, compared field by field; the words by the finalizer's equations. -/
theorem finalPublishesTheFinalizedWord : Obligations.FinalPublishesTheFinalizedWord := by
  intro s he hp xs avalanche a b h1 h2
  have hf : fin s.h1 s.h2 s.len = (h1, h2) := by
    rw [fin_eq, crossAdd_eq, fmix64_eq, fmix64_eq]
    simp only [xorShift33_eq]
    rfl
  have hw1 : (finalize s).h1 = h1 := by rw [finalize_h1, hf]
  have hw2 : (finalize s).h2 = h2 := by rw [finalize_h2, hf]
  have hres : (finalize s).res = h1 := by rw [finalize_res, hf]
  refine (execFinal_ok he hp).trans (congrArg _ (State.ext hw1 hw2 ?_ ?_ hres ?_ ?_ ?_ ?_ ?_ ?_))
  all_goals simp

/-- Settles O15: field by field, what neither error entry nor the command's effect changes. -/
theorem commandsChangeOnlyWhatTheyName : Obligations.CommandsChangeOnlyWhatTheyName := by
  intro i s t _ h
  have hown := exec_keeps State.surroundings h (fun _ => rfl) (commandEffect_surroundings i s)
  simp only [State.surroundings, Prod.mk.injEq] at hown
  obtain ⟨hmax, hhost, hfree⟩ := hown
  refine ⟨hmax, hhost, hfree, ?nop, ?block, ?tail, ?final, fun hi => exec_error_frame hi h⟩
  case nop =>
    rintro rfl
    exact (Host.Outcome.next.inj ((exec_nop s).symm.trans h)).symm
  case block =>
    rintro din rfl
    exact ⟨exec_keeps State.phase h (fun _ => rfl) (absorbBlock_phase s din),
      exec_keeps State.res h (fun _ => rfl) (absorbBlock_res s din),
      exec_keeps State.valid h (fun _ => rfl) (absorbBlock_valid s din)⟩
  case tail =>
    rintro r din rfl
    exact ⟨exec_keeps State.res h (fun _ => rfl) (absorbTail_res s r din),
      exec_keeps State.valid h (fun _ => rfl) (absorbTail_valid s r din)⟩
  case final =>
    rintro rfl
    exact exec_keeps State.len h (fun _ => rfl) (finalize_len s)

/-- Settles O19: LEN is a multiple of 16, so at the default MAX_LEN it is at most 2^64 - 16, where no block fits and
every tail does. -/
theorem lengthLimitAtTheDefaultMaxLen : Obligations.LengthLimitAtTheDefaultMaxLen := by
  intro s hinv hmax he hp
  have hlen := hinv.len_le_max
  have haligned := hinv.absorb_aligned hp
  refine ⟨fun din => ⟨fun hfull => ?_, fun hroom => ?_⟩, fun r din hr => ?_⟩
  · exact accept_error (by simp [he, hp, hmax, hfull])
  · have hfits : s.len.toNat + 16 ≤ s.maxLen.toNat := by omega
    refine ⟨_, execBlock_ok din he hp hfits, by simp [he], ?_⟩
    rw [absorbBlock_len, toNat_len_add hfits]
    omega
  · have hfits : s.len.toNat + r ≤ s.maxLen.toNat := by omega
    exact ⟨_, execTail_ok hr din he hp hfits, by simp [he], by rw [absorbTail_len, toNat_len_add hfits]⟩

end Sys2Proof.Machine

/-! SUPPORT. The proofs of the statements about a step (spec/41_control.md R65; spec/10_state.md R14, R27;
spec/93_implementation_defined.md I5): an accepted word as one shared step, what it keeps, and how the state words
travel through it; then the statements. -/

namespace Sys2Proof.Machine

variable {s t : State} {p : PortSample} {rest : List PortSample} {cmd : Byte} {din : Data}

/-! An accepted word as one shared step (R65). -/

/-- The effect of an accepted word that passes the check: its command's, or none. -/
def wordEffect (cmd : Byte) (din : Data) : State → State :=
  match decode cmd din with
  | .command i => commandEffect i
  | .illegal _ => fun s => s

/-- The cases of a word's effect: the effect of the command whose word it is, or none. -/
theorem wordEffect_cases (cmd : Byte) (din : Data) :
    (∃ i, encodeWord i = cmd ∧ wordEffect cmd din = commandEffect i) ∨ wordEffect cmd din = fun s => s := by
  cases hd : decode cmd din with
  | command i => exact .inl ⟨i, encodeWord_of_decode hd, by simp only [wordEffect, hd]⟩
  | illegal c => exact .inr (by simp only [wordEffect, hd])

theorem acceptCommand_eq_accept (cmd : Byte) (din : Data) (s : State) :
    acceptCommand cmd din s = accept cmd (wordEffect cmd din) s := by
  cases hd : decode cmd din with
  | command i =>
    obtain rfl := encodeWord_of_decode hd
    simp only [acceptCommand, wordEffect, hd, exec_eq_accept]
  | illegal c => simp only [acceptCommand, wordEffect, hd]

theorem wordEffect_surroundings (cmd : Byte) (din : Data) (s : State) :
    (wordEffect cmd din s).surroundings = s.surroundings := by
  rcases wordEffect_cases cmd din with ⟨i, -, hw⟩ | hw
  · rw [hw, commandEffect_surroundings]
  · rw [hw]

/-- An accepted word answers a next state, and leaves the host's samples and MAX_LEN. -/
theorem acceptCommand_next (cmd : Byte) (din : Data) (s : State) :
    ∃ t, acceptCommand cmd din s = .next t ∧ t.host = s.host ∧ t.maxLen = s.maxLen := by
  obtain ⟨t, ht⟩ := accept_total cmd (wordEffect cmd din) s
  have hown := accept_keeps State.surroundings ht (fun _ => rfl) (wordEffect_surroundings cmd din s)
  simp only [State.surroundings, Prod.mk.injEq] at hown
  obtain ⟨hmax, hhost, -⟩ := hown
  exact ⟨t, (acceptCommand_eq_accept cmd din s).trans ht, hhost, hmax⟩

theorem takeSample_next (p : PortSample) (s : State) :
    ∃ t, takeSample p s = .next t ∧ t.host = s.host ∧ t.maxLen = s.maxLen := by
  rcases takeSample_cases p s with ⟨-, h⟩ | ⟨-, -, h⟩ | ⟨-, -, -, h⟩ | ⟨-, -, -, h⟩
  · exact ⟨_, h, rfl, rfl⟩
  · exact ⟨_, h, rfl, rfl⟩
  · rw [h]
    exact acceptCommand_next p.cmd p.din s
  · exact ⟨_, h, rfl, rfl⟩

/-! Two states that differ in H1 and H2 (R14, R27). -/

/-- Two states that agree on all but the state words differ by a `setWords`. -/
theorem eq_setWords_of_fields (hlen : s.len = t.len) (hphase : s.phase = t.phase) (hres : s.res = t.res)
    (hvalid : s.valid = t.valid) (herr : s.err = t.err) (hcause : s.ecause = t.ecause)
    (hown : s.surroundings = t.surroundings) : s = t.setWords (s.h1, s.h2) := by
  simp only [State.surroundings, Prod.mk.injEq] at hown
  obtain ⟨hmax, hhost, hfree⟩ := hown
  exact State.ext rfl rfl hlen hphase hres hvalid herr hcause hmax hhost hfree

/-- Every effect but FINAL's carries a difference in the state words to the state words only. -/
theorem commandEffect_setWords {i : Instr} (hi : i ≠ .final) (s : State) (h : U64 × U64) :
    ∃ h', commandEffect i (s.setWords h) = (commandEffect i s).setWords h' := by
  have hown : (commandEffect i (s.setWords h)).surroundings = (commandEffect i s).surroundings := by
    rw [commandEffect_surroundings, commandEffect_surroundings]
    rfl
  cases i with
  | nop => exact ⟨h, rfl⟩
  | init => exact ⟨(0, 0), rfl⟩
  | final => exact absurd rfl hi
  | block | tail => exact ⟨_, eq_setWords_of_fields (by simp [commandEffect]) (by simp [commandEffect])
      (by simp [commandEffect]) (by simp [commandEffect]) (by simp [commandEffect]) (by simp [commandEffect]) hown⟩

/-- So does the shared step, as the check reads neither state word (R91). -/
theorem accept_setWords {effect : State → State} {h : U64 × U64}
    (heffect : ∃ h', effect (s.setWords h) = (effect s).setWords h') (ht : accept cmd effect s = .next t) :
    ∃ h', accept cmd effect (s.setWords h) = .next (t.setWords h') := by
  rcases accept_next ht with ⟨hk, rfl⟩ | ⟨c, hk, rfl⟩ | ⟨hk, rfl⟩
  · exact ⟨h, accept_discard hk⟩
  · exact ⟨h, accept_error hk⟩
  · obtain ⟨h', he⟩ := heffect
    exact ⟨h', he ▸ accept_ok (s := s.setWords h) hk⟩

theorem acceptCommand_setWords (hc : cmd ≠ finalWord) (h : U64 × U64) (ht : acceptCommand cmd din s = .next t) :
    ∃ h', acceptCommand cmd din (s.setWords h) = .next (t.setWords h') := by
  rw [acceptCommand_eq_accept] at ht ⊢
  refine accept_setWords ?_ ht
  rcases wordEffect_cases cmd din with ⟨i, hi, hw⟩ | hw
  · rw [hw]
    exact commandEffect_setWords (by rintro rfl; exact hc hi.symm) s h
  · rw [hw]
    exact ⟨h, rfl⟩

theorem takeSample_setWords (hp : p.Held) (hc : p.cmd ≠ finalWord) (h : U64 × U64) (ht : takeSample p s = .next t) :
    ∃ h', takeSample p (s.setWords h) = .next (t.setWords h') := by
  cases hr : p.rst with
  | true =>
    rw [takeSample_rst hr] at ht ⊢
    obtain rfl := Host.Outcome.next.inj ht
    exact ⟨(0, 0), rfl⟩
  | false =>
    cases hv : p.cmdValid with
    | false =>
      rw [takeSample_idle hr hv] at ht ⊢
      obtain rfl := Host.Outcome.next.inj ht
      exact ⟨h, rfl⟩
    | true =>
      rw [takeSample_steady hr hv (hp hr hv)] at ht ⊢
      exact acceptCommand_setWords hc h ht

/-! The statements. -/

/-- Settles O24: the accepted word by its decoding. -/
theorem stepRunsTheDecodedCommand : Obligations.StepRunsTheDecodedCommand := by
  intro s cmd din rest hs
  refine ⟨fun i hd => ?_, fun c hd => (step_of_presented hs).trans (acceptCommand_of_illegal hd)⟩
  rw [step_of_presented hs, acceptCommand, hd]
  rfl

/-- Settles O25: with no sample the state is held; with one, every case of the sample answers and keeps the rest. -/
theorem everyStepAnswersAndTakesOneSample : Obligations.EveryStepAnswersAndTakesOneSample := by
  intro s
  cases hs : s.host with
  | nil => exact ⟨s, step_nil hs, hs, rfl, fun _ => rfl⟩
  | cons p rest =>
    obtain ⟨t, ht, hhost, hmax⟩ := takeSample_next p (s.setHost rest)
    exact ⟨t, (step_cons hs).trans ht, hhost, hmax, fun h => nomatch h⟩

/-- Settles O29: the sample draws one set of free values. -/
theorem unsteadyCommandLeavesFreeValues : Obligations.UnsteadyCommandLeavesFreeValues :=
  fun _ _ _ hs hr hv hd => (step_cons hs).trans (takeSample_unsteady hr hv hd)

/-- Settles O31: a sample that is no FINAL carries a difference in the state words to the state words only, and neither
output shows them. -/
theorem stateWordsReachOutputsOnlyThroughFinal : Obligations.StateWordsReachOutputsOnlyThroughFinal := by
  intro s h1 h2 p rest t u hs hp hc ht hu
  obtain ⟨h', hu'⟩ := takeSample_setWords hp hc (h1, h2) ((step_cons hs).symm.trans ht)
  have hstep : step (s.setWords (h1, h2)) = .next (t.setWords h') := (step_cons (s := s.setWords (h1, h2)) hs).trans hu'
  obtain rfl := Host.Outcome.next.inj (hu.symm.trans hstep)
  exact ⟨rfl, rfl, rfl⟩

end Sys2Proof.Machine

/-! SUPPORT. The proofs of the statements about the bookkeeping invariant and the end of a run (spec/10_state.md R15 to
R19, spec/41_control.md R66, spec/60_exceptions.md R96): the invariant through each update of the state, then the
statements. -/

namespace Sys2Proof.Machine

variable {s t : State}

/-! Each update of the state keeps the invariant. -/

theorem State.Inv.valid_eq_false (h : s.Inv) (hp : s.phase ≠ .done) : s.valid = false :=
  Bool.eq_false_iff.mpr (mt h.valid_iff_done.mp hp)

theorem State.Inv.setHost (h : s.Inv) (rest : List PortSample) : (s.setHost rest).Inv :=
  ⟨h.err_iff_cause, h.len_le_max, h.absorb_aligned, h.valid_iff_done, h.valid_res, h.not_valid_res, h.max_pos⟩

/-- INIT and reset establish the invariant from every state with a legal MAX_LEN. -/
theorem State.inv_clear (hmax : Config.leastMaxLen.toNat ≤ s.maxLen.toNat) : s.clear.Inv where
  err_iff_cause := by simp
  len_le_max := Nat.zero_le _
  absorb_aligned _ := rfl
  valid_iff_done := by simp
  valid_res h := by simp at h
  not_valid_res _ := rfl
  max_pos := hmax

theorem State.Inv.raise (h : s.Inv) {c : Cause} (hc : c ≠ .noError) : (s.raise c).Inv where
  err_iff_cause := by simp [hc]
  len_le_max := h.len_le_max
  absorb_aligned := h.absorb_aligned
  valid_iff_done := h.valid_iff_done
  valid_res := h.valid_res
  not_valid_res := h.not_valid_res
  max_pos := h.max_pos

theorem State.Inv.absorbBlock (h : s.Inv) (din : Data) (hp : s.phase = .absorb)
    (hl : s.len.toNat + 16 ≤ s.maxLen.toNat) : (absorbBlock din s).Inv := by
  have hv : s.valid = false := h.valid_eq_false (by simp [hp])
  refine ⟨by simpa using h.err_iff_cause, ?_, fun _ => ?_, by simpa using h.valid_iff_done, by simp [hv],
    by simpa using h.not_valid_res, by simpa using h.max_pos⟩
  · rw [absorbBlock_len, absorbBlock_maxLen, toNat_len_add hl]
    exact hl
  · have haligned := h.absorb_aligned hp
    rw [absorbBlock_len, toNat_len_add hl]
    omega

theorem State.Inv.absorbTail (h : s.Inv) {r : Nat} (din : Data) (hp : s.phase = .absorb)
    (hl : s.len.toNat + r ≤ s.maxLen.toNat) : (absorbTail r din s).Inv := by
  have hv : s.valid = false := h.valid_eq_false (by simp [hp])
  refine ⟨by simpa using h.err_iff_cause, ?_, by simp, by simp [hv], by simp [hv],
    by simpa using h.not_valid_res, by simpa using h.max_pos⟩
  rw [absorbTail_len, absorbTail_maxLen, toNat_len_add hl]
  exact hl

theorem State.Inv.finalize (h : s.Inv) : (finalize s).Inv where
  err_iff_cause := by simpa using h.err_iff_cause
  len_le_max := by simpa using h.len_le_max
  absorb_aligned := by simp
  valid_iff_done := by simp
  valid_res := by simp
  not_valid_res := by simp
  max_pos := by simpa using h.max_pos

/-- A sample that keeps duty 6 keeps the invariant. -/
theorem State.Inv.step {p : PortSample} {rest : List PortSample} (hinv : s.Inv) (hs : s.host = p :: rest) (hp : p.Held)
    (h : step s = .next t) : t.Inv := by
  have hnext := hinv.setHost rest
  rcases step_cases hs hp h with ⟨-, rfl⟩ | ⟨-, -, rfl⟩ | ⟨-, -, hw⟩
  · exact State.inv_clear hinv.max_pos
  · exact hnext
  · rcases hw with ⟨-, rfl⟩ | ⟨-, rfl⟩ | ⟨-, -, rfl⟩ | ⟨-, -, -, c, hc, rfl⟩ | ⟨-, -, hph, hl, rfl⟩ |
      ⟨-, hph, r, -, -, hl, rfl⟩ | ⟨-, -, -, rfl⟩
    · exact hnext
    · exact State.inv_clear hinv.max_pos
    · exact hnext
    · exact hnext.raise (check_error s hc).2
    · exact hnext.absorbBlock p.din hph hl
    · exact hnext.absorbTail p.din hph hl
    · exact hnext.finalize

theorem step_host (h : step s = .next t) : t.host = s.host.tail := by
  obtain ⟨t', ht', hhost, -⟩ := everyStepAnswersAndTakesOneSample s
  obtain rfl := Host.Outcome.next.inj (h.symm.trans ht')
  exact hhost

/-! The statements. -/

/-- Settles O32: by the next sample; each case of the step is an update that keeps the invariant. -/
theorem everyStepKeepsTheInvariant : Obligations.EveryStepKeepsTheInvariant := by
  intro s t hinv hhost h
  refine ⟨?_, fun p hp => hhost p (List.mem_of_mem_tail (step_host h ▸ hp))⟩
  cases hs : s.host with
  | nil =>
    obtain rfl := Host.Outcome.next.inj (step_nil hs ▸ h)
    exact hinv
  | cons p rest => exact hinv.step hs (hhost p (by simp [hs])) h

/-- Settles O33: the reset state is a cleared one, and INIT and a reset step clear. -/
theorem resetMeetsTheInvariant : Obligations.ResetMeetsTheInvariant := by
  refine ⟨⟨State.inv_clear (s := State.reset) (by decide), fun p hp => nomatch hp⟩, fun s t hmax h => ?_,
    fun s p rest t hmax hs hr h => ?_⟩
  · obtain rfl := Host.Outcome.next.inj ((exec_init s).symm.trans h)
    exact State.inv_clear hmax
  · obtain rfl := Host.Outcome.next.inj ((step_of_rst hs hr).symm.trans h)
    exact State.inv_clear hmax

theorem atEnd_iff (s : State) : s.atEnd = true ↔ s.phase = .done ∧ s.valid = true ∧ s.err = false := by
  simp [State.atEnd, and_assoc]

/-- Settles O34: of the cases of a step, only a FINAL that runs gives an end where there was none. -/
theorem onlyASuccessfulFinalReachesTheEnd : Obligations.OnlyASuccessfulFinalReachesTheEnd := by
  intro s t p rest hs hp h hend
  have hheld : (s.setHost rest).atEnd ≠ true := Bool.eq_false_iff.mp hend
  rcases step_cases hs hp h with ⟨hr, rfl⟩ | ⟨hr, hv, rfl⟩ | ⟨hr, hv, hw⟩
  · exact iff_of_false (by simp [atEnd_iff]) (by simp [hr])
  · exact iff_of_false hheld (by simp [hv])
  · rcases hw with ⟨hc, rfl⟩ | ⟨hc, rfl⟩ | ⟨he, -, rfl⟩ | ⟨he, -, -, c, hk, rfl⟩ | ⟨-, hc, hph, -, rfl⟩ |
      ⟨-, -, r, hr15, hc, -, rfl⟩ | ⟨he, hc, hph, rfl⟩
    · exact iff_of_false hheld (by simp [hc, nopWord])
    · exact iff_of_false (by simp [atEnd_iff]) (by simp [hc, initWord])
    · exact iff_of_false hheld (by simp [he])
    · refine iff_of_false (by simp [atEnd_iff]) ?_
      rintro ⟨-, -, hc, -, hph⟩
      simp [show p.cmd = finalWord from hc, he, hph] at hk
    · exact iff_of_false (by simp [atEnd_iff, hph]) (by simp [hc, blockWord])
    · exact iff_of_false (by simp [atEnd_iff]) fun ⟨_, _, hc', _⟩ =>
        tailWord_ne_of_toNat hr15 (by decide) (hc.symm.trans hc')
    · exact iff_of_true (by simp [atEnd_iff, he]) ⟨hr, hv, hc, he, hph⟩

end Sys2Proof.Machine

/-! SUPPORT. The proofs of the statements about the absorbed input (spec/10_state.md R15, R18; spec/30_encoding.md R50;
spec/44_finalizer.md R85 to R88): the reference function on an input that grows, what each update of the state makes it
stand for; then the statements. -/

namespace Sys2Proof.Machine

variable {s t : State} {b c : List Byte} {p : PortSample} {rest : List PortSample} {din : Data} {n r : Nat}

/-! Lanes and slices of an input (R30 to R32). -/

theorem slice_lanes (din : Data) {start n m : Nat} (h : start + n ≤ m) :
    slice (lanes din 0 m) start n = lanes din start n := by
  apply List.ext_getElem
  · simp [slice]
    omega
  · intro j _ _
    simp [slice, lanes]

theorem inputByte_lanes (din : Data) {j n : Nat} (h : j < n) : inputByte (lanes din 0 n) j = dinByte din j := by
  rw [inputByte, lanes_getD din 0 h, Nat.zero_add]

theorem inputByte_slice (b : List Byte) (start : Nat) {j n : Nat} (h : j < n) :
    inputByte (slice b start n) j = inputByte b (start + j) := by
  simp [inputByte, slice, h]

theorem inputByte_drop (b : List Byte) (start j : Nat) :
    inputByte (b.drop start) j = inputByte b (start + j) := by
  simp [inputByte]

/-- Lanes that hold the bytes of the input from `start` on are that slice of it. -/
theorem lanes_eq_slice {start : Nat} (hlen : start + n ≤ b.length)
    (h : ∀ j, j < n → dinByte din j = inputByte b (start + j)) : lanes din 0 n = slice b start n := by
  apply List.ext_getElem
  · simp [slice]
    omega
  · intro j hj _
    rw [length_lanes] at hj
    have hb : start + j < b.length := by omega
    simp [lanes, slice, h j hj, inputByte, hb]

theorem take_append_slice (b : List Byte) (start n : Nat) : b.take start ++ slice b start n = b.take (start + n) :=
  List.take_add.symm

theorem slice_append_length (b c : List Byte) (start n : Nat) :
    slice (b ++ c) (b.length + start) n = slice c start n := by
  rw [slice, slice, List.drop_append, List.drop_eq_nil_of_le (by omega), List.nil_append, Nat.add_sub_cancel_left]

/-! The reference function on an input that grows (R86). -/

/-- After whole blocks only, the state words are those of the blocks: the tail is empty. -/
theorem absorbed_of_aligned (h : b.length % 16 = 0) : absorbed b = absorbBlocks b (b.length / 16) := by
  rw [absorbed, nblocks, tailLength, h, tmix_zero]

/-- One more block after whole blocks: one more round, over the block's two words. -/
theorem absorbed_append_block (hb : b.length % 16 = 0) (hc : c.length = 16) :
    absorbed (b ++ c) =
      bround (absorbed b).1 (absorbed b).2 (le64 (slice c 0 8)) (le64 (slice c 8 8)) := by
  have hlen : 16 * (b.length / 16) = b.length := by omega
  rw [absorbed_of_aligned (b := b ++ c) (by simp [hc, hb]), absorbed_of_aligned hb,
    show (b ++ c).length / 16 = b.length / 16 + 1 by simp [hc], absorbBlocks, absorbBlocks_append (by omega), hlen,
    slice_append_length, show b.length = b.length + 0 from rfl, slice_append_length]

/-- At most 15 bytes after whole blocks: the tail mix over them. -/
theorem absorbed_append_tail (hb : b.length % 16 = 0) (hc : c.length ≤ 15) :
    absorbed (b ++ c) = tmix (absorbed b).1 (absorbed b).2 (fun j => inputByte c j) c.length := by
  have hlen : 16 * (b.length / 16) = b.length := by omega
  have hblocks : nblocks (b ++ c) = b.length / 16 := by
    rw [nblocks, List.length_append]
    omega
  have htail : tailLength (b ++ c) = c.length := by
    rw [tailLength, List.length_append]
    omega
  rw [absorbed, hblocks, htail, absorbBlocks_append (by omega), absorbed_of_aligned hb, hlen]
  refine tmix_congr (fun j hj => ?_) _ _
  rw [inputByte, List.getD_append_right _ _ _ _ (by omega), Nat.add_sub_cancel_left, inputByte]

/-! What each update makes the state stand for (R15, R18). -/

theorem represents_of_absorb (hp : s.phase = .absorb) : s.Represents b ↔
    s.len.toNat = b.length ∧ b.length % 16 = 0 ∧ (s.h1, s.h2) = absorbed b ∧ s.valid = false ∧ s.res = 0 := by
  simp only [State.Represents, hp]

theorem represents_of_tailed (hp : s.phase = .tailed) : s.Represents b ↔
    s.len.toNat = b.length ∧ (s.h1, s.h2) = absorbed b ∧ s.valid = false ∧ s.res = 0 := by
  simp only [State.Represents, hp]

theorem represents_of_done (hp : s.phase = .done) : s.Represents b ↔
    s.len.toNat = b.length ∧ (s.h1, s.h2) = digest b ∧ s.valid = true ∧ s.res = refHash64 b := by
  simp only [State.Represents, hp]

/-- Before FINAL the state words are the reference function's. -/
theorem State.Represents.words_eq (h : s.Represents b) (hd : s.phase ≠ .done) : (s.h1, s.h2) = absorbed b := by
  cases hp : s.phase with
  | absorb => exact ((represents_of_absorb hp).mp h).2.2.1
  | tailed => exact ((represents_of_tailed hp).mp h).2.1
  | done => exact absurd hp hd

/-- Whenever VALID = 1, RES is hash64 of the bytes absorbed. -/
theorem State.Represents.res_eq (h : s.Represents b) (hv : s.valid = true) : s.res = refHash64 b := by
  cases hp : s.phase with
  | absorb =>
    obtain ⟨-, -, -, hv', -⟩ := (represents_of_absorb hp).mp h
    simp [hv] at hv'
  | tailed =>
    obtain ⟨-, -, hv', -⟩ := (represents_of_tailed hp).mp h
    simp [hv] at hv'
  | done =>
    obtain ⟨-, -, -, hres⟩ := (represents_of_done hp).mp h
    exact hres

theorem absorbed_nil : absorbed [] = (0, 0) := by decide

theorem clear_represents (s : State) : s.clear.Represents [] :=
  (represents_of_absorb (State.clear_phase s)).mpr ⟨rfl, rfl, absorbed_nil.symm, rfl, rfl⟩

theorem absorbBlock_represents (din : Data) (hrep : s.Represents b) (hp : s.phase = .absorb)
    (hl : s.len.toNat + 16 ≤ s.maxLen.toNat) : (absorbBlock din s).Represents (b ++ lanes din 0 16) := by
  obtain ⟨hlen, haligned, hwords, hv, hres⟩ := (represents_of_absorb hp).mp hrep
  refine (represents_of_absorb (by simp [hp])).mpr ⟨?_, by simp [haligned], ?_, by simp [hv], by simp [hres]⟩
  · rw [absorbBlock_len, toNat_len_add hl, List.length_append, length_lanes, hlen]
  · rw [absorbBlock_h1, absorbBlock_h2, absorbed_append_block haligned (length_lanes _ _ _), ← hwords,
      slice_lanes din (by decide), slice_lanes din (by decide), blockWords]

theorem absorbTail_represents (din : Data) (hr : r ≤ 15) (hrep : s.Represents b) (hp : s.phase = .absorb)
    (hl : s.len.toNat + r ≤ s.maxLen.toNat) : (absorbTail r din s).Represents (b ++ lanes din 0 r) := by
  obtain ⟨hlen, haligned, hwords, hv, hres⟩ := (represents_of_absorb hp).mp hrep
  refine (represents_of_tailed (by simp)).mpr ⟨?_, ?_, by simp [hv], by simp [hres]⟩
  · rw [absorbTail_len, toNat_len_add hl, List.length_append, length_lanes, hlen]
  · rw [absorbTail_h1, absorbTail_h2, absorbed_append_tail haligned (by simpa using hr), ← hwords, length_lanes,
      tmix_congr fun j hj => inputByte_lanes din hj]

theorem finalize_represents (hrep : s.Represents b) (hd : s.phase ≠ .done) : (finalize s).Represents b := by
  have hlen : s.len.toNat = b.length := hrep.1
  have hdigest : digest b = fin s.h1 s.h2 s.len := by
    rw [digest, ← hrep.words_eq hd, ← hlen, lengthWord_toNat]
  refine (represents_of_done (by simp)).mpr ⟨by rw [finalize_len, hlen], ?_, by simp, ?_⟩
  · rw [finalize_h1, finalize_h2, hdigest]
  · rw [finalize_res, refHash64, hdigest]

/-! One sample (R65). -/

/-- The bytes absorbed after a command that the check passes. -/
def absorbedBy (b : List Byte) : Instr → List Byte
  | .nop => b
  | .init => []
  | .block din => b ++ lanes din 0 16
  | .tail r din => b ++ lanes din 0 r
  | .final => b

theorem absorbedAfter_of_rst (s : State) (b : List Byte) (hr : p.rst = true) : absorbedAfter s b p = [] := by
  simp [absorbedAfter, hr]

theorem absorbedAfter_of_idle (s : State) (b : List Byte) (hr : p.rst = false) (hv : p.cmdValid = false) :
    absorbedAfter s b p = b := by
  simp [absorbedAfter, hr, hv]

theorem absorbedAfter_of_refused (b : List Byte) (hr : p.rst = false) (hk : check s p.cmd ≠ .ok) :
    absorbedAfter s b p = b := by
  simp [absorbedAfter, hr, hk]

theorem absorbedAfter_of_command {i : Instr} (b : List Byte) (hr : p.rst = false) (hv : p.cmdValid = true)
    (hk : check s p.cmd = .ok) (hd : decode p.cmd p.din = .command i) : absorbedAfter s b p = absorbedBy b i := by
  cases i <;> simp [absorbedAfter, absorbedBy, hr, hv, hk, hd]

/-- A command that the check passes makes the state stand for what it adds to the bytes absorbed. -/
theorem commandEffect_represents {i : Instr} (hi : i.wellFormed = true) (hk : check s (encodeWord i) = .ok)
    (hrep : s.Represents b) : (commandEffect i s).Represents (absorbedBy b i) := by
  cases i with
  | nop => exact hrep
  | init => exact clear_represents s
  | block din =>
    rw [encodeWord, check_blockWord] at hk
    split_ifs at hk with _ hp hl
    exact absorbBlock_represents din hrep (not_not.mp hp) (not_lt.mp hl)
  | tail r din =>
    have hr : r ≤ 15 := of_decide_eq_true hi
    rw [encodeWord, check_tailWord s hr] at hk
    split_ifs at hk with _ hp hl
    exact absorbTail_represents din hr hrep (not_not.mp hp) (not_lt.mp hl)
  | final =>
    rw [encodeWord, check_finalWord] at hk
    split_ifs at hk with _ hd
    exact finalize_represents hrep hd

theorem acceptCommand_represents (hr : p.rst = false) (hv : p.cmdValid = true) (hrep : s.Represents b)
    (h : acceptCommand p.cmd p.din s = .next t) : t.Represents (absorbedAfter s b p) := by
  cases hd : decode p.cmd p.din with
  | command i =>
    have hword := encodeWord_of_decode hd
    simp only [acceptCommand, hd, exec_eq_accept, hword] at h
    rcases accept_next h with ⟨hk, rfl⟩ | ⟨c, hk, rfl⟩ | ⟨hk, rfl⟩
    · rwa [absorbedAfter_of_refused b hr (by simp [hk])]
    · rwa [absorbedAfter_of_refused b hr (by simp [hk])]
    · rw [absorbedAfter_of_command b hr hv hk hd]
      exact commandEffect_represents (operands_of_decode hd).1 (hword ▸ hk) hrep
  | illegal c =>
    have hk : check s p.cmd ≠ .ok := by
      rw [check_of_illegal s hd]
      split <;> simp
    rw [absorbedAfter_of_refused b hr hk]
    rw [acceptCommand_of_illegal hd] at h
    split at h
    all_goals obtain rfl := Host.Outcome.next.inj h
    all_goals exact hrep

/-! The statements. -/

/-- Settles O35: reset starts again, an idle sample adds nothing, and an accepted word adds what its effect absorbs. -/
theorem everyStepKeepsTheAbsorbedInput : Obligations.EveryStepKeepsTheAbsorbedInput := by
  intro s t b p rest hs hp hrep h
  suffices hrep' : t.Represents (absorbedAfter s b p) from ⟨hrep', hrep'.res_eq⟩
  cases hr : p.rst with
  | true =>
    obtain rfl := Host.Outcome.next.inj ((step_of_rst hs hr).symm.trans h)
    rw [absorbedAfter_of_rst s b hr]
    exact clear_represents _
  | false =>
    cases hv : p.cmdValid with
    | false =>
      obtain rfl := Host.Outcome.next.inj ((step_of_idle hs hr hv).symm.trans h)
      rw [absorbedAfter_of_idle s b hr hv]
      exact hrep
    | true =>
      rw [step_of_presents hs (hp.presents hr hv)] at h
      exact acceptCommand_represents (s := s.setHost rest) hr hv hrep h

theorem fin_zero : fin 0 0 0 = (0, 0) := by decide

/-- FINAL on a cleared state publishes 0. -/
theorem execFinal_clear (s : State) : ∃ u, exec .final s.clear = .next u ∧ u.res = 0 ∧ u.status = 0x09 := by
  refine ⟨finalize s.clear, execFinal_ok rfl (by simp), ?_, ?_⟩
  · rw [finalize_res]
    exact congrArg Prod.fst fin_zero
  · exact statusFieldsShowTheFlags.2.2.1 _ (by simp) (by simp) (by simp) (by simp)

/-- Settles O38: INIT and reset clear, and the finalizer maps three zero words to zero. -/
theorem emptyInputHashesToZero : Obligations.EmptyInputHashesToZero := by
  refine ⟨by decide, fun s => ?_, execFinal_clear State.reset⟩
  obtain ⟨u, hu⟩ := execFinal_clear s
  exact ⟨s.clear, u, exec_init s, hu⟩

/-- Settles O39: the lanes by `dinByte_dinOf`, the lines by the assembler's equations. -/
theorem assemblerPlacesBytesOnLanes : Obligations.AssemblerPlacesBytesOnLanes := by
  refine ⟨fun bs _ j hj => dinByte_dinOf bs hj, fun bs => rfl, fun r bs hr hlen => if_pos ⟨hr, hlen⟩,
    fun r bs is h => ?_⟩
  rw [assembleLine] at h
  split at h
  case isTrue hline =>
    obtain rfl := Option.some.inj h
    exact ⟨hline.2, rfl, fun i hi => by simp at hi; subst hi; exact decide_eq_true hline.1⟩
  case isFalse => cases h

end Sys2Proof.Machine

/-! SUPPORT. The proofs of the statements about whole transactions (spec/44_finalizer.md R87; spec/30_encoding.md R51;
spec/41_control.md R66): the run of a transaction by the order of its samples, HASH's expansion as a transaction; then
the statements. -/

namespace Sys2Proof.Machine

variable {s t : State} {b : List Byte} {p : PortSample} {ps rest : List PortSample} {din : Data} {n : Nat}

/-! A transaction (R66). -/

/-- `n` steps take the state to the end of a run that hashed `b`, with `rest` left of what the host drives. -/
def FinishesWith (b : List Byte) (rest : List PortSample) (n : Nat) (s : State) : Prop :=
  ∃ t, Host.Core.run Sys2Proof.core n s = .next t ∧
    t.err = false ∧ t.phase = .done ∧ t.Represents b ∧ t.host = rest

theorem FinishesWith.of_step (h : step s = .next t) (ht : FinishesWith b rest n t) :
    FinishesWith b rest (n + 1) s := by
  obtain ⟨u, hu, hend⟩ := ht
  exact ⟨u, (run_succ n h).trans hu, hend⟩

/-- Within a transaction: ABSORB, no error, the first `n` blocks of `b` absorbed, and room for all of `b`. -/
structure State.HasAbsorbed (s : State) (b : List Byte) (n : Nat) : Prop where
  err : s.err = false
  phase : s.phase = .absorb
  represents : s.Represents (b.take (16 * n))
  room : b.length ≤ s.maxLen.toNat

theorem clear_hasAbsorbed (h : b.length ≤ s.maxLen.toNat) : s.clear.HasAbsorbed b 0 :=
  ⟨rfl, rfl, clear_represents s, h⟩

theorem State.HasAbsorbed.setHost (h : s.HasAbsorbed b n) (rest : List PortSample) : (s.setHost rest).HasAbsorbed b n :=
  ⟨h.err, h.phase, h.represents, h.room⟩

/-- A part of the input that comes after the absorbed blocks has room up to MAX_LEN. -/
theorem State.HasAbsorbed.fits {k : Nat} (h : s.HasAbsorbed b n) (hk : 16 * n + k ≤ b.length) :
    s.len.toNat + k ≤ s.maxLen.toNat := by
  have hroom := h.room
  rw [h.represents.1, List.length_take, Nat.min_eq_left (by omega)]
  omega

theorem State.HasAbsorbed.absorbBlock (h : s.HasAbsorbed b n) (hn : 16 * n + 16 ≤ b.length)
    (hdin : ∀ j, j < 16 → dinByte din j = inputByte b (16 * n + j)) : (absorbBlock din s).HasAbsorbed b (n + 1) := by
  have hrep := absorbBlock_represents din h.represents h.phase (h.fits hn)
  rw [lanes_eq_slice hn hdin, take_append_slice] at hrep
  exact ⟨by simp [h.err], by simp [h.phase], hrep, by simpa using h.room⟩

theorem blocks_add_tail (b : List Byte) : 16 * nblocks b + tailLength b = b.length := Nat.div_add_mod _ _

theorem tailLength_le (b : List Byte) : tailLength b ≤ 15 := by
  rw [tailLength]
  omega

/-- After the last block, the tail on the lanes of one TAIL completes the input. -/
theorem State.HasAbsorbed.absorbTail_represents (h : s.HasAbsorbed b (nblocks b))
    (hdin : ∀ j, j < tailLength b → dinByte din j = inputByte b (16 * nblocks b + j)) :
    (absorbTail (tailLength b) din s).Represents b := by
  have hlen := blocks_add_tail b
  have hrep := Machine.absorbTail_represents din (tailLength_le b) h.represents h.phase (h.fits hlen.le)
  rwa [lanes_eq_slice hlen.le hdin, take_append_slice, hlen, List.take_length] at hrep

/-- After the last block, an input without a tail is complete. -/
theorem State.HasAbsorbed.represents_of_no_tail (h : s.HasAbsorbed b (nblocks b)) (hr : tailLength b = 0) :
    s.Represents b := by
  have hlen := blocks_add_tail b
  have hrep := h.represents
  rwa [show 16 * nblocks b = b.length by omega, List.take_length] at hrep

/-! The run of a transaction. -/

theorem step_of_nopWord (hs : s.host = p :: rest) (hp : p.Presents nopWord) :
    step s = .next (s.setHost rest) := by
  simp [step_of_presents hs hp, acceptCommand, exec]

theorem finishesWith_of_final (hs : s.host = p :: rest) (hp : p.Presents finalWord) (he : s.err = false)
    (hd : s.phase ≠ .done) (hrep : s.Represents b) : FinishesWith b rest 1 s :=
  .of_step (step_of_finalWord hs hp he hd)
    ⟨_, rfl, by simp [he], finalize_phase _, finalize_represents (s := s.setHost rest) hrep hd, finalize_host _⟩

/-- After the last input byte: NOPs wait, FINAL ends the run. -/
theorem Closing.finishesWith (h : Closing ps) (hs : s.host = ps ++ rest) (he : s.err = false) (hd : s.phase ≠ .done)
    (hrep : s.Represents b) : FinishesWith b rest ps.length s := by
  induction h generalizing s with
  | nop hp _ ih => exact .of_step (step_of_nopWord hs hp) (ih rfl he hd hrep)
  | final hp => exact finishesWith_of_final hs hp he hd hrep

/-- From ABSORB: each sample absorbs the input's next bytes or waits, and FINAL ends the run. -/
theorem Absorbing.finishesWith (h : Absorbing b n ps) (hs : s.host = ps ++ rest) (ha : s.HasAbsorbed b n) :
    FinishesWith b rest ps.length s := by
  induction h generalizing s with
  | nop hp _ ih => exact .of_step (step_of_nopWord hs hp) (ih rfl (ha.setHost _))
  | @block n p ps hn hp hdin _ ih =>
    have hfits : 16 * n + 16 ≤ b.length := by
      rw [nblocks] at hn
      omega
    have hnext := ha.setHost (ps ++ rest)
    exact .of_step ((step_of_blockWord hs hp).trans (execBlock_ok p.din hnext.err hnext.phase (hnext.fits hfits)))
      (ih (by simp) (hnext.absorbBlock hfits hdin))
  | @tail p ps hp hdin hclose =>
    have hnext := ha.setHost (ps ++ rest)
    have hr := tailLength_le b
    have hrun := execTail_ok hr p.din hnext.err hnext.phase (hnext.fits (blocks_add_tail b).le)
    exact .of_step ((step_of_tailWord hr hs hp).trans hrun)
      (hclose.finishesWith (by simp) (by simp [ha.err]) (by simp) (hnext.absorbTail_represents hdin))
  | final hr hp => exact finishesWith_of_final hs hp ha.err (by simp [ha.phase]) (ha.represents_of_no_tail hr)

/-- INIT starts the transaction; NOPs before it wait. -/
theorem Transaction.finishesWith (h : Transaction b ps) (hs : s.host = ps ++ rest) (hroom : b.length ≤ s.maxLen.toNat) :
    FinishesWith b rest ps.length s := by
  induction h generalizing s with
  | nop hp _ ih => exact .of_step (step_of_nopWord hs hp) (ih rfl hroom)
  | init hp habs =>
    exact .of_step (step_of_initWord hs hp) (habs.finishesWith rfl (clear_hasAbsorbed hroom))

/-! HASH (R51). -/

/-- The BLOCK of HASH's expansion that absorbs block `i` of the input. -/
def hashBlock (b : List Byte) (i : Nat) : Instr := .block (dinOf (slice b (16 * i) 16))

theorem hashBlock_lanes (b : List Byte) (i : Nat) {j : Nat} (hj : j < 16) :
    dinByte (dinOf (slice b (16 * i) 16)) j = inputByte b (16 * i + j) :=
  (dinByte_dinOf _ hj).trans (inputByte_slice b (16 * i) hj)

theorem hashTail_lanes (b : List Byte) {j : Nat} (hj : j < tailLength b) :
    dinByte (dinOf (b.drop (16 * nblocks b))) j = inputByte b (16 * nblocks b + j) := by
  have hr := tailLength_le b
  exact (dinByte_dinOf _ (by omega)).trans (inputByte_drop b (16 * nblocks b) j)

/-- The BLOCKs from block `n` on absorb the blocks in order, before what absorbs the rest. -/
theorem absorbing_hashBlocks {is : List Instr} (hend : Absorbing b (nblocks b) (presentAll is)) (k : Nat)
    (hn : n + k = nblocks b) : Absorbing b n (presentAll ((List.range' n k).map (hashBlock b) ++ is)) := by
  induction k generalizing n with
  | zero =>
    obtain rfl : n = nblocks b := hn
    exact hend
  | succ k ih =>
    exact .block (by omega) (presented_presents _ _) (fun j hj => hashBlock_lanes b n hj) (ih (by omega))

/-- HASH's expansion is a transaction over its input (R51, R66). -/
theorem hashCommands_transaction (b : List Byte) : Transaction b (presentAll (hashCommands b)) := by
  refine .init (presented_presents _ _) ?_
  rw [List.range_eq_range']
  refine absorbing_hashBlocks (n := 0) ?_ (nblocks b) (Nat.zero_add _)
  split
  case isTrue hr => exact .final hr (presented_presents _ _)
  case isFalse =>
    exact .tail (presented_presents _ _) (fun j hj => hashTail_lanes b hj) (.final (presented_presents _ _))

/-! The statements. -/

/-- Settles O36: the run of the transaction, from INIT or from the reset values; at its end the state is DONE and stands
for the input. -/
theorem transactionComputesHash64 : Obligations.TransactionComputesHash64 := by
  intro b s ps rest hs hroom htrans
  have hfin : FinishesWith b rest ps.length s := by
    rcases htrans with htrans | ⟨hfresh, habs⟩
    · exact htrans.finishesWith hs hroom
    · have ha := clear_hasAbsorbed hroom
      rw [clear_eq_resetCore, ← show s = s.resetCore from hfresh] at ha
      exact habs.finishesWith hs ha
  obtain ⟨t, hrun, he, hp, hrep, hhost⟩ := hfin
  obtain ⟨hlen, -, hv, hres⟩ := (represents_of_done hp).mp hrep
  exact ⟨t, hrun, he, hlen, hv, hp, hres, (atEnd_iff t).mpr ⟨hp, hv, he⟩, hhost⟩

/-- Settles O37: the expansion is a transaction over its input. -/
theorem hashExpansionComputesHash64 : Obligations.HashExpansionComputesHash64 := by
  intro b s rest hs hroom
  obtain ⟨t, hrun, he, -, hv, -, hres, -, hhost⟩ :=
    transactionComputesHash64 b s _ rest hs hroom (.inl (hashCommands_transaction b))
  rw [presentAll, List.length_map] at hrun
  exact ⟨t, hrun, by simp [State.resultReadable, hv, he], he, hres, hhost⟩

end Sys2Proof.Machine
